-- ==== Sys2Proof/Word.lean ====
section
/-! DEFINITION. The bit strings of the block: what a byte, a 16-bit word and a leading nibble are
(spec/30_encoding.md R45, spec/10_state.md R21). -/

namespace Sys2Proof

/-- Eight bits of the buffer, an 8-bit displacement or an 8-bit immediate. -/
abbrev Byte := BitVec 8

/-- A 16-bit displacement, immediate or direct address. -/
abbrev Half := BitVec 16

/-- The leading 4-bit field (R59). -/
abbrev Nibble := BitVec 4

/-- A 3-bit `reg` or `rm` field (R45). -/
abbrev Field3 := BitVec 3

end Sys2Proof
end

