-- ==== Sys2Proof/Config.lean ====
section
/-! DEFINITION. What is fixed for one block: the value set of DIRECT_ADDR_MODE, the width of the
caller's address, the largest field width (spec/00_scope.md R5 to R9). -/

namespace Sys2Proof

/-- The three values of `DIRECT_ADDR_MODE` (R8): how mode 00 with `rm` 110 is treated (R71). -/
inductive DirectAddrMode where
  /-- `Bare(BP)`, no displacement: the reference code's behaviour. -/
  | reference
  /-- `Direct(Word(a16))`, two more bytes: the architecture's meaning. -/
  | architectural
  /-- `UnimplementedVariant`: the block declines to decide. -/
  | refuse
  deriving DecidableEq, Repr

/-- `ADDR_W` (R6): the width of the caller-supplied address. OPEN in the spec, so it has no body
here and nothing can be proved of its value (log 4). -/
opaque Config.addrW : Nat

/-- `TAKE_MAX` (R7). -/
def Config.takeMax : Nat := 16

/-- DESIGN CHOICE (log 1): the value the static configuration input has in `State.reset`. The spec
leaves it OPEN (R8); its test vectors use REFERENCE. -/
def Config.directAddrModeAtReset : DirectAddrMode := .reference

end Sys2Proof
end

