-- ==== Sys2Proof/Syntax.lean ====
section
/-! DEFINITION. The instructions, one constructor per row of spec/opcode_table.json, with the fields
of formats A and B (spec/30_encoding.md R46 to R50). -/

namespace Sys2Proof

/-- The width flag `w` (10_state.md R17): 0 is `byte`, 1 is `word`. -/
inductive Width where
  | byte
  | word
  deriving DecidableEq, Repr

/-- The direction flag `d` (R46, R78): 0 makes `reg` the source, 1 makes `reg` the destination. -/
inductive Direction where
  /-- `d = 0`: the `rm` operand is the destination. -/
  | toRm
  /-- `d = 1`: the `reg` operand is the destination. -/
  | toReg
  deriving DecidableEq, Repr

/-- A literal with its width tag (10_state.md R21): the tag is part of the value. -/
inductive Immediate where
  | byte (v : Byte)
  | word (v : Half)
  deriving DecidableEq, Repr

/-- The `mod` and `rm` fields with the displacement they ask for (30_encoding.md R50), before they
are turned into a location. -/
inductive RmOperand where
  /-- mod = 11. -/
  | reg (rm : Field3)
  /-- mod = 00, no displacement. -/
  | bare (rm : Field3)
  /-- mod = 01. -/
  | disp8 (rm : Field3) (d8 : Byte)
  /-- mod = 10. -/
  | disp16 (rm : Field3) (d16 : Half)
  /-- mod = 00 and rm = 110 with two more bytes (ARCHITECTURAL, 41_addressing.md R71). -/
  | direct (a16 : Half)
  deriving DecidableEq, Repr

/-- One constructor per row of opcode_table.json. Rows whose layout ends at the nibble carry no
operand: nothing after the nibble is read (40_classifier.md R62, R63, R64). -/
inductive Instr where
  /-- Format A (R46): `1000 xx d w | mod reg rm | [disp]`. -/
  | movRegMem (xx : BitVec 2) (d : Direction) (w : Width) (reg : Field3) (rm : RmOperand)
  /-- Format B (R47): `1011 w reg | imm`. The width flag is the immediate's width (R75). -/
  | movImmReg (reg : Field3) (imm : Immediate)
  /-- Format C (R48): `1100`, reserved. -/
  | movImmMem
  /-- Format D (R49): `1010`, reserved. -/
  | movAcc
  | unrecognized0000
  | unrecognized0001
  | unrecognized0010
  | unrecognized0011
  | unrecognized0100
  | unrecognized0101
  | unrecognized0110
  | unrecognized0111
  | unrecognized1001
  | unrecognized1101
  | unrecognized1110
  | unrecognized1111
  deriving DecidableEq, Repr

/-- The width an immediate carries. -/
def Immediate.width : Immediate → Width
  | .byte _ => .byte
  | .word _ => .word

end Sys2Proof
end

