-- ==== Sys2Proof/Machine/Values.lean ====
section
/-! DEFINITION. The value types a transaction takes and gives (spec/10_state.md R13, R17 to R28), in
the constructor order of R30. -/

namespace Sys2Proof

/-- A cursor position `(byte_index, bit_offset)` (R13, 00_scope.md R10). Offset 0 is bit 7. -/
structure Pos where
  byteIndex : Nat
  bitOffset : Fin 8
  deriving DecidableEq, Repr

/-- A register identity `(index, w)` (R17): a name, not storage. -/
structure Register where
  index : Field3
  w : Width
  deriving DecidableEq, Repr

/-- The eight base-register combinations, in `rm` order (R18). -/
inductive Address where
  | bxSi
  | bxDi
  | bpSi
  | bpDi
  | si
  | di
  | bp
  | bx
  deriving DecidableEq, Repr

/-- An effective-address expression (R19). Nothing computes an address. -/
inductive EffectiveAddress where
  | bare (a : Address)
  | withOffset (a : Address) (disp : Immediate)
  /-- Only under ARCHITECTURAL, always a `Word` (R19, R71). -/
  | direct (a : Immediate)
  deriving DecidableEq, Repr

/-- An operand naming a place (R20). A memory location carries no width. -/
inductive Location where
  | reg (r : Register)
  | mem (ea : EffectiveAddress)
  deriving DecidableEq, Repr

/-- The right-hand operand (R22). -/
inductive Source where
  | loc (l : Location)
  | imm (i : Immediate)
  deriving DecidableEq, Repr

/-- The classifier's output (R23). -/
inductive Family where
  | regMemMove
  | immToReg
  | immToMem
  | accMove
  | unrecognized
  deriving DecidableEq, Repr

/-- The `kind` of a record (R24); the last two are reserved and never emitted. -/
inductive Op where
  | movRegMemToRegMem
  | movImmToReg
  | movImmToMem
  | unrecognized
  deriving DecidableEq, Repr

/-- The `Instruction` record (R25). The address is a natural number below `2 ^ ADDR_W` (log 4). -/
structure Record where
  address : Nat
  length : Nat
  kind : Op
  dst : Location
  src : Source
  deriving DecidableEq, Repr

/-- The three errors with their payloads (R26). `atPos` is the spec's `at`. -/
inductive Error where
  | insufficientInput (atPos : Pos) (need : Nat)
  | unsupportedOpcode (nibble : Nibble) (atPos rest : Pos)
  | unimplementedVariant (family : Family) (nibble : Nibble) (atPos rest : Pos)
  deriving DecidableEq, Repr

/-- A transaction's result (R27). -/
inductive Result where
  | ok (instr : Record) (next : Pos)
  | err (e : Error)
  deriving DecidableEq, Repr

/-- A request (R28) without the buffer, which is a port of its own. -/
structure Request where
  start : Pos
  addrIn : Nat
  deriving DecidableEq, Repr

end Sys2Proof
end

