-- ==== Sys2Proof/Machine/Memory.lean ====
section
/-! DEFINITION. The input buffer: the only address space (spec/20_memory.md R31 to R33), its one
canonical form, the read primitive, and the operations by which the CALLER fills it between
transactions (R43). The block itself only reads. -/

namespace Sys2Proof

/-- The input buffer. `length` is BUF_LEN (00_scope.md R5). `cells` lists the bytes that differ from
`Memory.unlisted`, by rising index. -/
structure Memory where
  length : Nat
  cells : List Host.Cell
  deriving DecidableEq, Repr

/-- DESIGN CHOICE (log 3): the byte an unlisted index below `length` holds. -/
def Memory.unlisted : Byte := 0x00#8

/-- The canonical form: indices strictly rising, no entry equal to what an unlisted index holds, every
index inside the buffer. -/
abbrev Memory.wf (m : Memory) : Prop :=
  m.cells.Pairwise (fun x y => x.1 < y.1) ∧
    ∀ c ∈ m.cells, c.2 ≠ Memory.unlisted ∧ c.1 < m.length

/-- The byte a list of cells gives an index. -/
def Memory.lookup : List Host.Cell → Nat → Byte
  | [], _ => Memory.unlisted
  | c :: rest, i => if c.1 = i then c.2 else Memory.lookup rest i

/-- Byte `i` of the buffer contents; meaningful below `length` only. -/
def Memory.byteAt (m : Memory) (i : Nat) : Byte := Memory.lookup m.cells i

/-- `MemRead(i, 1)` (R31): defined exactly for `0 ≤ i < BUF_LEN`. -/
def Memory.memRead (m : Memory) (i : Nat) : Option Byte :=
  if i < m.length then some (m.byteAt i) else none

/-- `bit(q)` (00_scope.md R10): stream bit `q`, the most significant bit of a byte first. -/
def Memory.bit (m : Memory) (q : Nat) : Bool := (m.byteAt (q / 8)).getLsbD (7 - q % 8)

/-- The number of bits in the buffer. -/
def Memory.bitLength (m : Memory) : Nat := 8 * m.length

/-- The cells after index `i` has been given the byte `v`: the canonical form is kept. -/
def Memory.storeCell (i : Nat) (v : Byte) : List Host.Cell → List Host.Cell
  | [] => if v = Memory.unlisted then [] else [(i, v)]
  | c :: rest =>
    if c.1 < i then c :: Memory.storeCell i v rest
    else if c.1 = i then (if v = Memory.unlisted then rest else (i, v) :: rest)
    else (if v = Memory.unlisted then c :: rest else (i, v) :: c :: rest)

/-- The CALLER's write of one byte (R43). DESIGN CHOICE (log 19): at or past the buffer's end the buffer
grows to hold the index; the spec gives no such growth, only that BUF_LEN is fixed during a transaction
(00_scope.md R5). -/
def Memory.store (m : Memory) (i : Nat) (v : Byte) : Memory :=
  { length := max m.length (i + 1), cells := Memory.storeCell i v m.cells }

/-- A byte with its bit `j` set to `v`. -/
def setBitOf (b : Byte) (j : Nat) (v : Bool) : Byte :=
  if v then b ||| (1#8 <<< j) else b &&& ~~~(1#8 <<< j)

/-- The CALLER's write of one stream bit; past the buffer's end the buffer grows (log 19). -/
def Memory.setBit (m : Memory) (q : Nat) (v : Bool) : Memory :=
  m.store (q / 8) (setBitOf (m.byteAt (q / 8)) (7 - q % 8) v)

/-- The CALLER's write of a run of stream bits from bit `q` on; past the buffer's end the buffer grows
(log 19). -/
def Memory.putBits (m : Memory) (q : Nat) : List Bool → Memory
  | [] => m
  | v :: vs => (m.setBit q v).putBits (q + 1) vs

/-- The cells of a list of bytes whose first byte has index `i`. -/
def Memory.cellsFrom (i : Nat) : List Byte → List Host.Cell
  | [] => []
  | b :: bs =>
    if b = Memory.unlisted then Memory.cellsFrom (i + 1) bs else (i, b) :: Memory.cellsFrom (i + 1) bs

/-- The buffer that holds exactly these bytes. -/
def Memory.ofBytes (bs : List Byte) : Memory :=
  { length := bs.length, cells := Memory.cellsFrom 0 bs }

/-- The stream bits of a list of bytes, most significant bit of each byte first (R37). -/
def bitsOfBytes : List Byte → List Bool
  | [] => []
  | b :: bs =>
    b.getLsbD 7 :: b.getLsbD 6 :: b.getLsbD 5 :: b.getLsbD 4 ::
      b.getLsbD 3 :: b.getLsbD 2 :: b.getLsbD 1 :: b.getLsbD 0 :: bitsOfBytes bs

end Sys2Proof
end

