-- ==== Sys2Proof/Machine/Cursor.lean ====
section
/-! DEFINITION. The bit cursor: positions, advancing, and the one extraction `take`
(spec/00_scope.md R10, spec/10_state.md R13, R14, spec/20_memory.md R34, R35). -/

namespace Sys2Proof

/-- `abs(i, o) = 8*i + o` (R10). -/
def Pos.abs (p : Pos) : Nat := 8 * p.byteIndex + p.bitOffset.val

/-- `pos(q) = (q div 8, q mod 8)` (R13). -/
def Pos.ofAbs (q : Nat) : Pos := ⟨q / 8, ⟨q % 8, Nat.mod_lt q (by decide)⟩⟩

/-- The position `n` bits on: `pos(abs + n)` (R13). -/
def Pos.advance (p : Pos) (n : Nat) : Pos := Pos.ofAbs (p.abs + n)

/-- The `n` stream bits from bit `q` on, the first one most significant (R34). -/
def Memory.bitsAt (m : Memory) (q : Nat) : (n : Nat) → BitVec n
  | 0 => 0#0
  | n + 1 => (m.bitsAt q n).concat (m.bit (q + n))

/-- `take(c, n)` (R34): `n` bits and the cursor past them, or `InsufficientInput` when fewer remain
(R35). A cursor is a value: a new one comes back (R14). Widths outside 1..16 never occur (R36, log
13). -/
def take (m : Memory) (c : Pos) (n : Nat) : Except Error (BitVec n × Pos) :=
  if c.abs + n ≤ m.bitLength then .ok (m.bitsAt c.abs n, c.advance n)
  else .error (.insufficientInput c n)

end Sys2Proof
end

