-- ==== Sys2Proof/Machine/Flags.lean ====
section
/-! DEFINITION. The block has no condition flags and writes none (spec/10_state.md R16, every rule's
"flags written: none"). The two flags of an encoding are its fields `d` and `w`; this file says what
their bits mean (spec/30_encoding.md R46, R47) and how `d` assigns the operand roles (R78). -/

namespace Sys2Proof

/-- The `w` bit: 0 byte, 1 word (R46, R47). -/
def Width.ofBit (b : BitVec 1) : Width := if b = 1#1 then .word else .byte

/-- The bit that spells a width. -/
def Width.bit : Width → BitVec 1
  | .byte => 0#1
  | .word => 1#1

/-- The `d` bit: 1 makes `reg` the destination (R46). -/
def Direction.ofBit (b : BitVec 1) : Direction := if b = 1#1 then .toReg else .toRm

/-- The bit that spells a direction. -/
def Direction.bit : Direction → BitVec 1
  | .toRm => 0#1
  | .toReg => 1#1

/-- The destination of a format-A move (R78). -/
def Direction.dst (d : Direction) (regLoc rmLoc : Location) : Location :=
  match d with
  | .toReg => regLoc
  | .toRm => rmLoc

/-- The source of a format-A move (R78). -/
def Direction.src (d : Direction) (regLoc rmLoc : Location) : Location :=
  match d with
  | .toReg => rmLoc
  | .toRm => regLoc

end Sys2Proof
end

