-- ==== Sys2Proof/Machine/Immediate.lean ====
section
/-! DEFINITION. The immediate decoder (spec/42_immediate.md R73 to R75). -/

namespace Sys2Proof

/-- Two bytes read in order, the first the low-order one (R74, R38): `lo + (hi << 8)`. -/
def takeHalf (m : Memory) (c : Pos) : Except Error (Half × Pos) := do
  let (lo, c1) ← take m c 8
  let (hi, c2) ← take m c1 8
  return (hi ++ lo, c2)

/-- `imm8(c)` (R73). -/
def imm8 (m : Memory) (c : Pos) : Except Error (Immediate × Pos) := do
  let (v, c1) ← take m c 8
  return (.byte v, c1)

/-- `imm16(c)` (R74). -/
def imm16 (m : Memory) (c : Pos) : Except Error (Immediate × Pos) := do
  let (v, c1) ← takeHalf m c
  return (.word v, c1)

/-- `imm(c, w)` (R75). -/
def immOfWidth (m : Memory) (c : Pos) : Width → Except Error (Immediate × Pos)
  | .byte => imm8 m c
  | .word => imm16 m c

end Sys2Proof
end

