-- ==== Sys2Proof/WellFormed.lean ====
section
/-! DEFINITION. Which instruction values some bits spell under a value of DIRECT_ADDR_MODE
(spec/30_encoding.md R50, spec/41_addressing.md R71). -/

namespace Sys2Proof

/-- R71: mode 00 with rm 110 is the direct form under ARCHITECTURAL and the bare form otherwise.
Every other operand form is legal in every configuration (R55). -/
def RmOperand.wf (m : DirectAddrMode) : RmOperand → Bool
  | .bare rm => !(rm == 0b110#3 && m == .architectural)
  | .direct _ => m == .architectural
  | .reg _ => true
  | .disp8 _ _ => true
  | .disp16 _ _ => true

/-- An instruction value that some bits spell under configuration `m`. -/
def Instr.wf (m : DirectAddrMode) : Instr → Bool
  | .movRegMem _ _ _ _ rm => rm.wf m
  | .movImmReg _ _ => true
  | .movImmMem => true
  | .movAcc => true
  | .unrecognized0000 => true
  | .unrecognized0001 => true
  | .unrecognized0010 => true
  | .unrecognized0011 => true
  | .unrecognized0100 => true
  | .unrecognized0101 => true
  | .unrecognized0110 => true
  | .unrecognized0111 => true
  | .unrecognized1001 => true
  | .unrecognized1101 => true
  | .unrecognized1110 => true
  | .unrecognized1111 => true

end Sys2Proof
end

