-- ==== Sys2Proof/Decode.lean ====
section
/-! DEFINITION. The decoder: bits of the buffer to an instruction value or the first error reached
(spec/40_classifier.md R59 to R64, spec/30_encoding.md R46 to R53), and after it the encoder, written
from the same tables. -/

namespace Sys2Proof

/-- The displacement that `mod` asks for, after `rm` has been read (30_encoding.md R50,
41_addressing.md R66 to R71). -/
def fetchRm (mode : DirectAddrMode) (m : Memory) (c : Pos) (md : BitVec 2) (rm : Field3) :
    Except Error (RmOperand × Pos) :=
  match (md.toFin : Fin 4) with
  | 3 => return (.reg rm, c)
  | 0 =>
    if rm = 0b110#3 ∧ mode = .architectural then do
      let (a, c1) ← takeHalf m c
      return (.direct a, c1)
    else return (.bare rm, c)
  | 1 => do
    let (d, c1) ← take m c 8
    return (.disp8 rm d, c1)
  | 2 => do
    let (d, c1) ← takeHalf m c
    return (.disp16 rm d, c1)

/-- Format A from the cursor after the nibble (R46; R60 reads `xx`, R77 the rest). -/
def fetchRegMem (mode : DirectAddrMode) (m : Memory) (c1 : Pos) : Except Error (Instr × Pos) := do
  let (xx, c2) ← take m c1 2
  let (d, c3) ← take m c2 1
  let (w, c4) ← take m c3 1
  let (md, c5) ← take m c4 2
  let (reg, c6) ← take m c5 3
  let (rm, c7) ← take m c6 3
  let (opnd, c8) ← fetchRm mode m c7 md rm
  return (.movRegMem xx (Direction.ofBit d) (Width.ofBit w) reg opnd, c8)

/-- Format B from the cursor after the nibble (R47, R79). -/
def fetchImmReg (m : Memory) (c1 : Pos) : Except Error (Instr × Pos) := do
  let (w, c2) ← take m c1 1
  let (reg, c3) ← take m c2 3
  let (imm, c4) ← immOfWidth m c3 (Width.ofBit w)
  return (.movImmReg reg imm, c4)

/-- One row of the opcode map for each leading nibble (R53); `c1` is the cursor after the nibble. -/
def fetchRow (mode : DirectAddrMode) (m : Memory) (nib : Nibble) (c1 : Pos) :
    Except Error (Instr × Pos) :=
  match nib.getLsbD 3, nib.getLsbD 2, nib.getLsbD 1, nib.getLsbD 0 with
  | false, false, false, false => return (.unrecognized0000, c1)
  | false, false, false, true => return (.unrecognized0001, c1)
  | false, false, true, false => return (.unrecognized0010, c1)
  | false, false, true, true => return (.unrecognized0011, c1)
  | false, true, false, false => return (.unrecognized0100, c1)
  | false, true, false, true => return (.unrecognized0101, c1)
  | false, true, true, false => return (.unrecognized0110, c1)
  | false, true, true, true => return (.unrecognized0111, c1)
  | true, false, false, false => fetchRegMem mode m c1
  | true, false, false, true => return (.unrecognized1001, c1)
  | true, false, true, false => return (.movAcc, c1)
  | true, false, true, true => fetchImmReg m c1
  | true, true, false, false => return (.movImmMem, c1)
  | true, true, false, true => return (.unrecognized1101, c1)
  | true, true, true, false => return (.unrecognized1110, c1)
  | true, true, true, true => return (.unrecognized1111, c1)

/-- The instruction at a position and the cursor after the last field read, or the first extraction
that fails (60_exceptions.md R92). -/
def fetch (mode : DirectAddrMode) (m : Memory) (c0 : Pos) : Except Error (Instr × Pos) := do
  let (nib, c1) ← take m c0 4
  fetchRow mode m nib c1

/-- The host's numbering: bit 0 is the least significant bit of the first byte, bits 15..8 are the
second byte. Everything above `nbits` is 0; four bytes is the longest instruction (R44). -/
def tableBytes (nbits w : Nat) : List Byte :=
  let v := w % 2 ^ nbits
  [BitVec.ofNat 8 v, BitVec.ofNat 8 (v / 2 ^ 8), BitVec.ofNat 8 (v / 2 ^ 16),
    BitVec.ofNat 8 (v / 2 ^ 24)]

/-- The instruction the decoder reads from a table word (log 12: under the configuration that
`State.reset` has). -/
def decodeTableWord (nbits w : Nat) : Option Instr :=
  match fetch Config.directAddrModeAtReset (Memory.ofBytes (tableBytes nbits w)) (Pos.ofAbs 0) with
  | .ok r => some r.1
  | .error _ => none

/-! ### The encoder -/

/-- The `mod` field of an operand form (R50). -/
def RmOperand.modField : RmOperand → BitVec 2
  | .bare _ => 0b00#2
  | .direct _ => 0b00#2
  | .disp8 _ _ => 0b01#2
  | .disp16 _ _ => 0b10#2
  | .reg _ => 0b11#2

/-- The `rm` field of an operand form (R50, R71). -/
def RmOperand.rmField : RmOperand → Field3
  | .reg rm => rm
  | .bare rm => rm
  | .disp8 rm _ => rm
  | .disp16 rm _ => rm
  | .direct _ => 0b110#3

/-- A 16-bit literal as two bytes, low byte first (R52). -/
def halfBytes (v : Half) : List Byte := [v.extractLsb' 0 8, v.extractLsb' 8 8]

/-- The trailing displacement bytes of an operand form (R46, R52). -/
def RmOperand.dispBytes : RmOperand → List Byte
  | .reg _ => []
  | .bare _ => []
  | .disp8 _ d => [d]
  | .disp16 _ d => halfBytes d
  | .direct a => halfBytes a

/-- The bytes of an immediate (R52). -/
def Immediate.bytes : Immediate → List Byte
  | .byte v => [v]
  | .word v => halfBytes v

/-- The leading nibble of each row (R53). -/
def Instr.nibble : Instr → Nibble
  | .movRegMem _ _ _ _ _ => 0b1000#4
  | .movImmReg _ _ => 0b1011#4
  | .movImmMem => 0b1100#4
  | .movAcc => 0b1010#4
  | .unrecognized0000 => 0b0000#4
  | .unrecognized0001 => 0b0001#4
  | .unrecognized0010 => 0b0010#4
  | .unrecognized0011 => 0b0011#4
  | .unrecognized0100 => 0b0100#4
  | .unrecognized0101 => 0b0101#4
  | .unrecognized0110 => 0b0110#4
  | .unrecognized0111 => 0b0111#4
  | .unrecognized1001 => 0b1001#4
  | .unrecognized1101 => 0b1101#4
  | .unrecognized1110 => 0b1110#4
  | .unrecognized1111 => 0b1111#4

/-- A row of which only the nibble is defined: the four bits after it are not read, and the encoder
writes zeros there (log 17). -/
def nibbleByte (n : Nibble) : Byte := n ++ 0b0000#4

/-- The bytes of an instruction, first byte first (R46 to R49). -/
def encode (i : Instr) : List Byte :=
  match i with
  | .movRegMem xx d w reg rm =>
    ((0b1000#4 ++ xx ++ d.bit ++ w.bit : BitVec 8)) ::
      ((rm.modField ++ reg ++ rm.rmField : BitVec 8)) :: rm.dispBytes
  | .movImmReg reg imm => ((0b1011#4 ++ imm.width.bit ++ reg : BitVec 8)) :: imm.bytes
  | .movImmMem => [nibbleByte 0b1100#4]
  | .movAcc => [nibbleByte 0b1010#4]
  | .unrecognized0000 => [nibbleByte 0b0000#4]
  | .unrecognized0001 => [nibbleByte 0b0001#4]
  | .unrecognized0010 => [nibbleByte 0b0010#4]
  | .unrecognized0011 => [nibbleByte 0b0011#4]
  | .unrecognized0100 => [nibbleByte 0b0100#4]
  | .unrecognized0101 => [nibbleByte 0b0101#4]
  | .unrecognized0110 => [nibbleByte 0b0110#4]
  | .unrecognized0111 => [nibbleByte 0b0111#4]
  | .unrecognized1001 => [nibbleByte 0b1001#4]
  | .unrecognized1101 => [nibbleByte 0b1101#4]
  | .unrecognized1110 => [nibbleByte 0b1110#4]
  | .unrecognized1111 => [nibbleByte 0b1111#4]

/-- How many bits the block reads for an instruction: all of its bytes for formats A and B (R57), the
nibble alone for the other rows (R62, R63, R64). -/
def Instr.bits : Instr → Nat
  | .movRegMem _ _ _ _ rm => 16 + 8 * rm.dispBytes.length
  | .movImmReg _ imm => 8 + 8 * imm.bytes.length
  | .movImmMem => 4
  | .movAcc => 4
  | .unrecognized0000 => 4
  | .unrecognized0001 => 4
  | .unrecognized0010 => 4
  | .unrecognized0011 => 4
  | .unrecognized0100 => 4
  | .unrecognized0101 => 4
  | .unrecognized0110 => 4
  | .unrecognized0111 => 4
  | .unrecognized1001 => 4
  | .unrecognized1101 => 4
  | .unrecognized1110 => 4
  | .unrecognized1111 => 4

/-- The bits of an instruction that the block reads, in stream order. -/
def encodeBits (i : Instr) : List Bool := (bitsOfBytes (encode i)).take i.bits

/-- The host's number of a list of bytes: the first byte is bits 7..0. -/
def wordOfBytes : List Byte → Nat
  | [] => 0
  | b :: bs => b.toNat + 256 * wordOfBytes bs

/-- The buffer holds the bits `bs` from position `p` on. -/
def Memory.holds (m : Memory) (p : Pos) (bs : List Bool) : Prop :=
  p.abs + bs.length ≤ m.bitLength ∧ ∀ k, k < bs.length → bs[k]? = some (m.bit (p.abs + k))

end Sys2Proof
end

