-- ==== Sys2Proof/Machine/Operands.lean ====
section
/-! DEFINITION. The addressing decoder's output: operand forms to locations (spec/41_addressing.md R66
to R72). No canonicalisation (R72): each form gives its own location. -/

namespace Sys2Proof

/-- The base combination of an `rm` field, in field order (10_state.md R18). -/
def Address.ofRm (rm : Field3) : Address :=
  match (rm.toFin : Fin 8) with
  | 0 => .bxSi
  | 1 => .bxDi
  | 2 => .bpSi
  | 3 => .bpDi
  | 4 => .si
  | 5 => .di
  | 6 => .bp
  | 7 => .bx

/-- The location an operand form names; `w` matters for a register only (R67 to R71). -/
def RmOperand.location (w : Width) : RmOperand → Location
  | .reg rm => .reg ⟨rm, w⟩
  | .bare rm => .mem (.bare (Address.ofRm rm))
  | .disp8 rm d => .mem (.withOffset (Address.ofRm rm) (.byte d))
  | .disp16 rm d => .mem (.withOffset (Address.ofRm rm) (.word d))
  | .direct a => .mem (.direct (.word a))

/-- The form REFUSE declines (R71): mode 00 with rm 110. -/
def RmOperand.declined (m : DirectAddrMode) (rm : RmOperand) : Bool :=
  m == .refuse && rm == .bare 0b110#3

end Sys2Proof
end

