-- ==== Sys2Proof/Machine/State.lean ====
section
/-! DEFINITION. The state of the block between transactions and inside one, as plain data
(spec/10_state.md R12 to R16, R28, R29), the reasons a meaning can stop, and the state after reset
(spec/70_reset_and_hazards.md R98). -/

namespace Sys2Proof.Machine

/-- The block with its ports. -/
structure State where
  /-- `DIRECT_ADDR_MODE` (R8, R29): a static configuration input. -/
  directAddrMode : DirectAddrMode
  /-- The input buffer (R31), which the block only reads. -/
  buf : Memory
  /-- The request port (R28): `none` when no request waits for its response. -/
  request : Option Request
  /-- The bit cursor's position (R13): `none` outside a transaction (R98). -/
  cursor : Option Pos
  /-- The response port (R27, R28): `none` when no response is pending (R98). -/
  response : Option Result
  deriving DecidableEq, Repr

/-- The block has no fault: an error is a response and the block never halts (60_exceptions.md R88,
R93). No constructor, so nobody can raise one. -/
inductive Fault where
  deriving DecidableEq, Repr

/-- The reasons something is refused. `step` raises none of them. -/
inductive Refusal where
  /-- An instruction without a meaning, raised by `exec`'s arm. Safe. No arm uses it. -/
  | notModelled (mnemonic : String)
  /-- Raised by a meaning applied where no transaction is in progress (no request or no cursor): the
  spec gives an instruction no effect there. Safe (log 9). -/
  | noTransaction
  /-- Raised by `execMovRegMem` for an operand form that no bits spell under the state's
  DIRECT_ADDR_MODE (41_addressing.md R71). Safe (log 8). -/
  | formOutsideConfiguration
  /-- Raised by the CALLER's operation `storeByte` while a transaction is in progress (20_memory.md
  R43: the model refuses). Safe (log 10). -/
  | bufferInUse
  /-- Raised by the CALLER's operation `post` while a request already waits (92_eei_decisions.md D1: at
  most one request in flight). Safe (log 10). -/
  | requestInFlight
  deriving DecidableEq, Repr

/-- The block after reset under configuration `m` (R98): idle, no cursor, no response. The buffer is
the caller's and starts empty (DESIGN CHOICE, log 2). -/
def State.resetIn (m : DirectAddrMode) : State :=
  { directAddrMode := m, buf := { length := 0, cells := [] }, request := none, cursor := none,
    response := none }

/-- The state after reset; the configuration's value is a DESIGN CHOICE (log 1). -/
def State.reset : State := State.resetIn Config.directAddrModeAtReset

end Sys2Proof.Machine
end

