-- ==== Sys2Proof/Machine/Ops.lean ====
section
/-! DEFINITION. The shared operations of the meanings: answering a request, raising an error,
completing a record (spec/43_assembler.md R77 to R83, spec/60_exceptions.md R88). There is no return
from an error: the block is ready for the next request at once (R93). -/

namespace Sys2Proof.Machine

/-- The transaction ends with its one response; request and cursor are gone (10_state.md R27, R28,
70_reset_and_hazards.md R98). Buffer and configuration stay. -/
def respond (res : Result) (s : State) : State :=
  { s with request := none, cursor := none, response := some res }

/-- `raise E(info)` (R88): the transaction ends with `Err`; nothing else changes. -/
def raise (e : Error) (s : State) : State := respond (.err e) s

/-- The record of a request whose last field ended at cursor `c` (R81, R82). -/
def stamp (r : Request) (c : Pos) (kind : Op) (dst : Location) (src : Source) : Record :=
  { address := r.addrIn, length := (c.abs - r.start.abs) / 8, kind, dst, src }

/-- `return Ok(Instruction …, c)` (R77, R79, R83). -/
def complete (r : Request) (c : Pos) (kind : Op) (dst : Location) (src : Source) (s : State) :
    State :=
  respond (.ok (stamp r c kind dst src) c) s

/-- A meaning runs inside a transaction: with its request and its cursor (log 9). -/
def inTransaction (s : State) (k : Request → Pos → Host.Outcome State Fault Refusal) :
    Host.Outcome State Fault Refusal :=
  match s.request, s.cursor with
  | some r, some c => k r c
  | _, _ => .refused .noTransaction

/-- The response of a nibble outside the table (40_classifier.md R64). -/
def answerUnsupported (nib : Nibble) (s : State) : Host.Outcome State Fault Refusal :=
  inTransaction s fun r c => .next (raise (.unsupportedOpcode nib r.start c) s)

/-- The response of a family without decode logic (R62, R63). -/
def answerUnimplemented (f : Family) (nib : Nibble) (s : State) :
    Host.Outcome State Fault Refusal :=
  inTransaction s fun r c => .next (raise (.unimplementedVariant f nib r.start c) s)

end Sys2Proof.Machine
end

