-- ==== Sys2Proof/Machine/Move.lean ====
section
/-! DEFINITION. The meanings of the two decoded families: the instruction assembler
(spec/43_assembler.md R77 to R83). -/

namespace Sys2Proof.Machine

/-- MOV register/memory to or from register (R77, R78). The discarded bits `xx` take no part (R54).
Under REFUSE, mode 00 with rm 110 raises `UnimplementedVariant` (R71). -/
def execMovRegMem (_xx : BitVec 2) (d : Direction) (w : Width) (reg : Field3) (rm : RmOperand)
    (s : State) : Host.Outcome State Fault Refusal :=
  inTransaction s fun r c =>
    if rm.wf s.directAddrMode = false then .refused .formOutsideConfiguration
    else if rm.declined s.directAddrMode then
      .next (raise (.unimplementedVariant .regMemMove 0b1000#4 r.start c) s)
    else
      let regLoc := Location.reg ⟨reg, w⟩
      let rmLoc := rm.location w
      .next (complete r c .movRegMemToRegMem (d.dst regLoc rmLoc) (.loc (d.src regLoc rmLoc)) s)

/-- MOV immediate to register (R79). -/
def execMovImmReg (reg : Field3) (imm : Immediate) (s : State) :
    Host.Outcome State Fault Refusal :=
  inTransaction s fun r c =>
    .next (complete r c .movImmToReg (.reg ⟨reg, imm.width⟩) (.imm imm) s)

end Sys2Proof.Machine
end

