-- ==== Sys2Proof/Machine/Reserved.lean ====
section
/-! DEFINITION. The meanings of the two reserved families: always `UnimplementedVariant`
(spec/40_classifier.md R62, R63, spec/43_assembler.md R80). -/

namespace Sys2Proof.Machine

/-- Immediate-to-memory move (R62). -/
def execMovImmMem (s : State) : Host.Outcome State Fault Refusal :=
  answerUnimplemented .immToMem 0b1100#4 s

/-- Accumulator-relative move (R63). -/
def execMovAcc (s : State) : Host.Outcome State Fault Refusal :=
  answerUnimplemented .accMove 0b1010#4 s

end Sys2Proof.Machine
end

