-- ==== Sys2Proof/Machine/Unrecognized.lean ====
section
/-! DEFINITION. The meanings of the twelve nibbles outside the dispatch table: always
`UnsupportedOpcode`, a per-instruction result and no halt (spec/40_classifier.md R64,
spec/60_exceptions.md R90). -/

namespace Sys2Proof.Machine

/-- Nibble 0000 (R64). -/
def execUnrecognized0000 (s : State) : Host.Outcome State Fault Refusal :=
  answerUnsupported 0b0000#4 s

/-- Nibble 0001 (R64). -/
def execUnrecognized0001 (s : State) : Host.Outcome State Fault Refusal :=
  answerUnsupported 0b0001#4 s

/-- Nibble 0010 (R64). -/
def execUnrecognized0010 (s : State) : Host.Outcome State Fault Refusal :=
  answerUnsupported 0b0010#4 s

/-- Nibble 0011 (R64). -/
def execUnrecognized0011 (s : State) : Host.Outcome State Fault Refusal :=
  answerUnsupported 0b0011#4 s

/-- Nibble 0100 (R64). -/
def execUnrecognized0100 (s : State) : Host.Outcome State Fault Refusal :=
  answerUnsupported 0b0100#4 s

/-- Nibble 0101 (R64). -/
def execUnrecognized0101 (s : State) : Host.Outcome State Fault Refusal :=
  answerUnsupported 0b0101#4 s

/-- Nibble 0110 (R64). -/
def execUnrecognized0110 (s : State) : Host.Outcome State Fault Refusal :=
  answerUnsupported 0b0110#4 s

/-- Nibble 0111 (R64). -/
def execUnrecognized0111 (s : State) : Host.Outcome State Fault Refusal :=
  answerUnsupported 0b0111#4 s

/-- Nibble 1001 (R64). -/
def execUnrecognized1001 (s : State) : Host.Outcome State Fault Refusal :=
  answerUnsupported 0b1001#4 s

/-- Nibble 1101 (R64). -/
def execUnrecognized1101 (s : State) : Host.Outcome State Fault Refusal :=
  answerUnsupported 0b1101#4 s

/-- Nibble 1110 (R64). -/
def execUnrecognized1110 (s : State) : Host.Outcome State Fault Refusal :=
  answerUnsupported 0b1110#4 s

/-- Nibble 1111 (R64). -/
def execUnrecognized1111 (s : State) : Host.Outcome State Fault Refusal :=
  answerUnsupported 0b1111#4 s

end Sys2Proof.Machine
end

