-- ==== Sys2Proof/Machine/Dispatch.lean ====
section
/-! DEFINITION. One arm per constructor of `Instr`: the opcode map of spec/30_encoding.md R53. -/

namespace Sys2Proof.Machine

def exec (i : Instr) (s : State) : Host.Outcome State Fault Refusal :=
  match i with
  | .movRegMem xx d w reg rm => Sys2Proof.Machine.execMovRegMem xx d w reg rm s
  | .movImmReg reg imm => Sys2Proof.Machine.execMovImmReg reg imm s
  | .movImmMem => Sys2Proof.Machine.execMovImmMem s
  | .movAcc => Sys2Proof.Machine.execMovAcc s
  | .unrecognized0000 => Sys2Proof.Machine.execUnrecognized0000 s
  | .unrecognized0001 => Sys2Proof.Machine.execUnrecognized0001 s
  | .unrecognized0010 => Sys2Proof.Machine.execUnrecognized0010 s
  | .unrecognized0011 => Sys2Proof.Machine.execUnrecognized0011 s
  | .unrecognized0100 => Sys2Proof.Machine.execUnrecognized0100 s
  | .unrecognized0101 => Sys2Proof.Machine.execUnrecognized0101 s
  | .unrecognized0110 => Sys2Proof.Machine.execUnrecognized0110 s
  | .unrecognized0111 => Sys2Proof.Machine.execUnrecognized0111 s
  | .unrecognized1001 => Sys2Proof.Machine.execUnrecognized1001 s
  | .unrecognized1101 => Sys2Proof.Machine.execUnrecognized1101 s
  | .unrecognized1110 => Sys2Proof.Machine.execUnrecognized1110 s
  | .unrecognized1111 => Sys2Proof.Machine.execUnrecognized1111 s

end Sys2Proof.Machine
end

