-- ==== Sys2Proof/Machine/Step.lean ====
section
/-! DEFINITION. One step of the block: one transaction from its request to its response
(spec/10_state.md R28, spec/43_assembler.md R76), and the caller's loading of one instruction for the
host. -/

namespace Sys2Proof.Machine

/-- With no request the block is idle and nothing changes (R98, R12). With a request, the transaction
creates its cursor, the decoder reads the fields, and either the first failing extraction ends it
(R88) or the instruction's meaning answers it (log 5, log 6). -/
def step (s : State) : Host.Outcome State Fault Refusal :=
  match s.request with
  | none => .next s
  | some r =>
    match fetch s.directAddrMode s.buf r.start with
    | .error e => .next (raise e s)
    | .ok ic => exec ic.1 { s with cursor := some ic.2 }

/-- The request that `withFetchWord` answers to: the waiting one, or one at the buffer's first bit. -/
def State.requestOrFirst (s : State) : Request :=
  match s.request with
  | some r => r
  | none => ⟨Pos.ofAbs 0, 0⟩

/-- The caller puts the four bytes of a table word where the next transaction starts to read, and
presents the request if none waits (log 11); the buffer grows to hold them (log 19). -/
def State.withFetchWord (s : State) (nbits w : Nat) : State :=
  { s with
    request := some s.requestOrFirst
    buf := s.buf.putBits s.requestOrFirst.start.abs (bitsOfBytes (tableBytes nbits w)) }

end Sys2Proof.Machine
end

