-- ==== Sys2Proof/Machine/Tags.lean ====
section
/-! DEFINITION. The tag values on a bit-level bus (spec/10_state.md R30). -/

namespace Sys2Proof

def Result.tag : Result → Nat
  | .ok _ _ => 0
  | .err _ => 1

def Error.tag : Error → Nat
  | .insufficientInput _ _ => 0
  | .unsupportedOpcode _ _ _ => 1
  | .unimplementedVariant _ _ _ _ => 2

def Family.tag : Family → Nat
  | .regMemMove => 0
  | .immToReg => 1
  | .immToMem => 2
  | .accMove => 3
  | .unrecognized => 4

def Op.tag : Op → Nat
  | .movRegMemToRegMem => 0
  | .movImmToReg => 1
  | .movImmToMem => 2
  | .unrecognized => 3

def Location.tag : Location → Nat
  | .reg _ => 0
  | .mem _ => 1

def Source.tag : Source → Nat
  | .loc _ => 0
  | .imm _ => 1

def EffectiveAddress.tag : EffectiveAddress → Nat
  | .bare _ => 0
  | .withOffset _ _ => 1
  | .direct _ => 2

def Immediate.tag : Immediate → Nat
  | .byte _ => 0
  | .word _ => 1

/-- The `rm` value (R18). -/
def Address.tag : Address → Nat
  | .bxSi => 0
  | .bxDi => 1
  | .bpSi => 2
  | .bpDi => 3
  | .si => 4
  | .di => 5
  | .bp => 6
  | .bx => 7

/-- `w` as a number (R17). -/
def Width.tag : Width → Nat
  | .byte => 0
  | .word => 1

/-- `index` (3 bits) and `w` (1 bit). -/
def Register.tag (r : Register) : Nat × Nat := (r.index.toNat, r.w.tag)

end Sys2Proof
end

