-- ==== Sys2Proof/Machine/Classifier.lean ====
section
/-! DEFINITION. The opcode classifier's dispatch table (spec/40_classifier.md R60 to R65,
spec/30_encoding.md R53). -/

namespace Sys2Proof

/-- The four entries, in the order of R65. -/
def dispatchTable : List (Nibble × Family) :=
  [(0b1000#4, .regMemMove), (0b1011#4, .immToReg), (0b1100#4, .immToMem), (0b1010#4, .accMove)]

/-- The first entry whose pattern is the nibble; `Unrecognized` when none is (R65). -/
def classify (nib : Nibble) : Family :=
  match dispatchTable.find? (fun e => e.1 == nib) with
  | some e => e.2
  | none => .unrecognized

end Sys2Proof
end

