-- ==== Sys2Proof/Machine/Transaction.lean ====
section
/-! DEFINITION. The spec's own pseudocode of a transaction, written rule by rule as ONE function of the
request (spec/43_assembler.md R76, R77, R79; spec/41_addressing.md R66 to R71). `step` splits the same
work into decoding an instruction and running its meaning; that the two agree is an obligation. -/

namespace Sys2Proof

/-- `addr_decode(c, mode, w)` (R66 to R71); `c0` is the transaction's start. -/
def addrDecode (mode : DirectAddrMode) (m : Memory) (c0 c : Pos) (md : BitVec 2) (w : Width) :
    Except Error (Location × Pos) := do
  let (rm, c1) ← take m c 3
  if md = 0b11#2 then
    return (.reg ⟨rm, w⟩, c1)
  else if md = 0b00#2 then
    if rm ≠ 0b110#3 then
      return (.mem (.bare (Address.ofRm rm)), c1)
    else
      match mode with
      | .reference => return (.mem (.bare .bp), c1)
      | .architectural => do
        let (a, c2) ← imm16 m c1
        return (.mem (.direct a), c2)
      | .refuse => throw (.unimplementedVariant .regMemMove 0b1000#4 c0 c1)
  else if md = 0b01#2 then do
    let (d8, c2) ← imm8 m c1
    return (.mem (.withOffset (Address.ofRm rm) d8), c2)
  else do
    let (d16, c2) ← imm16 m c1
    return (.mem (.withOffset (Address.ofRm rm) d16), c2)

/-- R60 and R77, from the cursor after the nibble. -/
def assembleRegMem (mode : DirectAddrMode) (m : Memory) (c0 : Pos) (addrIn : Nat) (c1 : Pos) :
    Except Error (Record × Pos) := do
  let (_, c2) ← take m c1 2
  let (d, c3) ← take m c2 1
  let (w, c4) ← take m c3 1
  let (md, c5) ← take m c4 2
  let (reg, c6) ← take m c5 3
  let (loc, c7) ← addrDecode mode m c0 c6 md (Width.ofBit w)
  let r := Location.reg ⟨reg, Width.ofBit w⟩
  let length := (c7.abs - c0.abs) / 8
  if d = 1#1 then
    return ({ address := addrIn, length, kind := .movRegMemToRegMem, dst := r, src := .loc loc }, c7)
  else
    return ({ address := addrIn, length, kind := .movRegMemToRegMem, dst := loc, src := .loc r }, c7)

/-- R61 and R79, from the cursor after the nibble. -/
def assembleImmReg (m : Memory) (c0 : Pos) (addrIn : Nat) (c1 : Pos) :
    Except Error (Record × Pos) := do
  let (w, c2) ← take m c1 1
  let (reg, c3) ← take m c2 3
  let (imm, c4) ← immOfWidth m c3 (Width.ofBit w)
  return ({ address := addrIn, length := (c4.abs - c0.abs) / 8, kind := .movImmToReg,
            dst := .reg ⟨reg, Width.ofBit w⟩, src := .imm imm }, c4)

/-- The body of `decode` (R76): the classifier reads the nibble and selects the path. -/
def assemble (mode : DirectAddrMode) (m : Memory) (c0 : Pos) (addrIn : Nat) :
    Except Error (Record × Pos) := do
  let (nib, c1) ← take m c0 4
  match classify nib with
  | .regMemMove => assembleRegMem mode m c0 addrIn c1
  | .immToReg => assembleImmReg m c0 addrIn c1
  | .immToMem => throw (.unimplementedVariant .immToMem nib c0 c1)
  | .accMove => throw (.unimplementedVariant .accMove nib c0 c1)
  | .unrecognized => throw (.unsupportedOpcode nib c0 c1)

/-- `decode(buf, c0, addr_in) : Result` (R76). Any `raise` ends it with `Err`. -/
def decode (mode : DirectAddrMode) (m : Memory) (c0 : Pos) (addrIn : Nat) : Result :=
  match assemble mode m c0 addrIn with
  | .ok rc => .ok rc.1 rc.2
  | .error e => .err e

end Sys2Proof
end

