-- ==== Sys2Proof/Machine/Environment.lean ====
section
/-! DEFINITION. The block's environment, which is NOT part of the block: the caller's operations on the
ports, the reset input, and the caller's stream loop (spec/70_reset_and_hazards.md R98 to R101,
spec/20_memory.md R43). `step` calls nothing of this file (log 14). -/

namespace Sys2Proof.Machine

/-- A transaction is in progress from the request's arrival to its response. -/
def State.busy (s : State) : Bool := s.request.isSome || s.cursor.isSome

/-- The caller presents a request: at most one is in flight (92_eei_decisions.md D1). -/
def post (r : Request) (s : State) : Host.Outcome State Fault Refusal :=
  if s.busy then .refused .requestInFlight
  else .next { s with request := some r, response := none }

/-- The caller changes one byte of the buffer: between transactions only (R43, R103). An index at or past
the buffer's end enlarges it: DESIGN CHOICE (log 19). -/
def storeByte (i : Nat) (v : Byte) (s : State) : Host.Outcome State Fault Refusal :=
  if s.busy then .refused .bufferInUse else .next { s with buf := s.buf.store i v }

/-- The reset input (R98): a transaction in progress ends with no response, nothing is remembered.
The configuration is static, the buffer the caller's (log 15). -/
def applyReset (s : State) : State :=
  { s with request := none, cursor := none, response := none }

/-- One request through the block: the response and the state after it. `none` where the block does
not accept the request or does not answer it. -/
def transact (r : Request) (s : State) : Option (Result × State) :=
  match post r s with
  | .next t =>
    match step t with
    | .next u => u.response.map (fun res => (res, u))
    | .fault _ => none
    | .refused _ => none
  | .fault _ => none
  | .refused _ => none

/-- The normal end of a byte-aligned buffer (R100): the failing extraction is the nibble's, at the
buffer's end. -/
def normalEnd (s : State) (r : Request) (res : Result) : Bool :=
  match res with
  | .err (.insufficientInput p _) => p == r.start && r.start == ⟨s.buf.length, 0⟩
  | _ => false

/-- What the caller asks next after an answer (R100): after `Ok` it feeds `next` back and adds the
length to the address; at the normal end it stops; after another error its own policy decides. -/
def nextRequest (policy : Request → Error → Option Request) (s : State) (r : Request)
    (res : Result) : Option Request :=
  match res with
  | .ok instr next => some ⟨next, r.addrIn + instr.length⟩
  | .err e => if normalEnd s r res then none else policy r e

/-- The caller's loop (R100, R101), at most `n` transactions: each request with its response. -/
def stream (policy : Request → Error → Option Request) :
    Nat → Request → State → List (Request × Result)
  | 0, _, _ => []
  | n + 1, r, s =>
    match transact r s with
    | none => []
    | some (res, t) =>
      (r, res) ::
        (match nextRequest policy t r res with
         | none => []
         | some r' => stream policy n r' t)

/-- The policy that stops at the first error. -/
def stopPolicy : Request → Error → Option Request := fun _ _ => none

/-- The policy of the spec's program P2 (95_test_vectors.md): after an opcode the block does not
decode, restart one byte further on; stop on a truncated instruction. -/
def skipBytePolicy : Request → Error → Option Request := fun r e =>
  match e with
  | .insufficientInput _ _ => none
  | .unsupportedOpcode _ _ _ => some ⟨r.start.advance 8, r.addrIn + 1⟩
  | .unimplementedVariant _ _ _ _ => some ⟨r.start.advance 8, r.addrIn + 1⟩

end Sys2Proof.Machine
end

