-- ==== Sys2Proof/Safety.lean ====
section
/-! DEFINITION. What a safe step is, what a legal response is (spec/10_state.md R19, R24 to R26), and
the invariant of the block between transactions. -/

namespace Sys2Proof.Machine

/-- The step answers a next state: no fault, no refusal. -/
def State.Safe (s : State) : Prop := ∃ t, step s = .next t

/-- A location in a format-A record whose register operand has width `w`: a register has that width
(R51); `Bare(BP)` arises under REFERENCE only (R87), `Direct` under ARCHITECTURAL only and with a
`Word` (R19). -/
def Location.legal (m : DirectAddrMode) (w : Width) : Location → Prop
  | .reg r => r.w = w
  | .mem (.bare a) => a = .bp → m = .reference
  | .mem (.withOffset _ _) => True
  | .mem (.direct a) => m = .architectural ∧ a.width = .word

/-- A record a successful transaction may carry (R24, R25): two kinds, one register operand of the
instruction's width in each, 2 to 4 bytes, an address of ADDR_W bits. -/
def Record.legal (m : DirectAddrMode) (rec : Record) : Prop :=
  rec.address < 2 ^ Config.addrW ∧ 2 ≤ rec.length ∧ rec.length ≤ 4 ∧
    match rec.kind, rec.dst, rec.src with
    | .movRegMemToRegMem, .reg r, .loc l => Location.legal m r.w l
    | .movRegMemToRegMem, .mem ea, .loc (.reg r) => Location.legal m r.w (.mem ea)
    | .movImmToReg, .reg r, .imm i => i.width = r.w
    | _, _, _ => False

/-- An error a transaction may carry (R26, R89 to R91). -/
def Error.legal (m : DirectAddrMode) : Error → Prop
  | .insufficientInput _ need => need = 1 ∨ need = 2 ∨ need = 3 ∨ need = 4 ∨ need = 8
  | .unsupportedOpcode nib p rest => classify nib = .unrecognized ∧ rest = p.advance 4
  | .unimplementedVariant f nib p rest =>
    (f = .immToMem ∧ nib = 0b1100#4 ∧ rest = p.advance 4) ∨
      (f = .accMove ∧ nib = 0b1010#4 ∧ rest = p.advance 4) ∨
        (f = .regMemMove ∧ nib = 0b1000#4 ∧ m = .refuse ∧ rest = p.advance 16)

/-- A response the block may give. -/
def Result.legal (m : DirectAddrMode) : Result → Prop
  | .ok rec _ => Record.legal m rec
  | .err e => Error.legal m e

/-- The block between transactions: the buffer in its canonical form, no cursor (R98), a waiting
request with an address of ADDR_W bits (R6), a legal response. -/
structure State.Inv (s : State) : Prop where
  buf_wf : s.buf.wf
  no_cursor : s.cursor = none
  request_width : ∀ r, s.request = some r → r.addrIn < 2 ^ Config.addrW
  response_legal : ∀ res, s.response = some res → Result.legal s.directAddrMode res

end Sys2Proof.Machine
end

