-- ==== Sys2Proof/Certificates/Slice0/Obligations.lean ====
section
/-! DEFINITION. The statements about the block, each citing the rules of spec/ it formalises. Where a
statement says that an answer takes the request and the cursor away (`respond`), that an idle step
changes nothing, or that a new request takes the last response away, that clause is the model's form of
a transaction (log 5, log 6, log 18), and no rule is cited for it. -/

open Sys2Proof Sys2Proof.Machine

/-! ### Reset, totality, the transaction -/

/-- R98: after reset (from power-up or arriving at any time) the block is idle, with no transaction,
cursor or response; reset does not change DIRECT_ADDR_MODE (log 15); an idle block stays as it is
(log 5). -/
def Obligations.ResetLeavesTheBlockIdle : Prop :=
  (∀ m, (State.resetIn m).directAddrMode = m ∧ (State.resetIn m).request = none ∧
      (State.resetIn m).cursor = none ∧ (State.resetIn m).response = none) ∧
    (∀ s, (applyReset s).directAddrMode = s.directAddrMode ∧ (applyReset s).request = none ∧
      (applyReset s).cursor = none ∧ (applyReset s).response = none) ∧
    ∀ s, s.request = none → step s = .next s

/-- R27: in every state the step answers a next state, and a waiting request gets exactly one
result. -/
def Obligations.EveryRequestGetsOneResponse : Prop :=
  (∀ s : State, s.Safe) ∧
    ∀ (s : State) (r : Request), s.request = some r →
      ∃ res t, step s = .next t ∧ t.response = some res ∧ t.request = none ∧ t.cursor = none

/-- R76, R28: the step's response to a request is the spec's pseudocode `decode` of it, and nothing
else of the state changes but that request and cursor are gone. -/
def Obligations.StepAnswersTheSpecsDecode : Prop :=
  ∀ (s : State) (r : Request), s.request = some r →
    step s = .next { s with request := none, cursor := none,
                            response := some (decode s.directAddrMode s.buf r.start r.addrIn) }

/-- R12: two blocks with the same configuration, buffer and request give the same response, whatever
they hold besides. -/
def Obligations.ResponseDependsOnTheRequestAlone : Prop :=
  ∀ (s s' : State) (r : Request), s.directAddrMode = s'.directAddrMode → s.buf = s'.buf →
    s.request = some r → s'.request = some r →
    ∃ t t', step s = .next t ∧ step s' = .next t' ∧ t.response = t'.response ∧
      t.response ≠ none

/-- R84: the same request presented again gets the same result. -/
def Obligations.RepeatedRequestGetsTheSameResult : Prop :=
  ∀ (s : State) (r : Request), s.request = some r →
    ∃ t t' u, step s = .next t ∧ post r t = .next t' ∧ step t' = .next u ∧
      u.response = t.response ∧ t.response ≠ none

/-- After R93: after an error response the block takes the next request at once, with nothing in
between; presenting the failed request again gives the same error. That the new request takes the last
response away is the model's choice (log 18), that request and cursor are gone after the answer its form
of a transaction (log 5, log 6); R93 says neither. -/
def Obligations.ReadyAfterAnError : Prop :=
  ∀ (s t : State) (e : Error) (r0 : Request), s.request = some r0 → step s = .next t →
    t.response = some (.err e) →
    (∀ r : Request, post r t = .next { s with request := some r, cursor := none,
                                              response := none }) ∧
      ∃ u, step { s with request := some r0, cursor := none, response := none } = .next u ∧
        u.response = some (.err e)

/-- R32: the block never writes the buffer; nor does it change DIRECT_ADDR_MODE (R29). -/
def Obligations.StepNeverWritesBufferOrConfiguration : Prop :=
  ∀ (s t : State), step s = .next t →
    t.directAddrMode = s.directAddrMode ∧ t.buf.length = s.buf.length ∧
      ∀ a, t.buf.memRead a = s.buf.memRead a

/-- The frame of every meaning: where it answers a next state, the buffer (its length and every
byte) and the configuration are as before; request and cursor are gone; one response stands. -/
def Obligations.MeaningsChangeOnlyThePorts : Prop :=
  ∀ (i : Instr) (s t : State), exec i s = .next t →
    t.directAddrMode = s.directAddrMode ∧ t.buf.length = s.buf.length ∧
      (∀ a, t.buf.memRead a = s.buf.memRead a) ∧ t.request = none ∧ t.cursor = none ∧
      ∃ res, t.response = some res

/-- The model's choice alone, given by no rule: when `exec` refuses. A meaning outside a transaction
(log 9), and an operand form no bits spell under the configuration (log 8). -/
def Obligations.MeaningsStopOutsideTheirDomain : Prop :=
  (∀ (i : Instr) (s : State), s.request = none ∨ s.cursor = none →
      exec i s = .refused .noTransaction) ∧
    ∀ (s : State) (r : Request) (c : Pos) (i : Instr), s.request = some r → s.cursor = some c →
      i.wf s.directAddrMode = false → exec i s = .refused .formOutsideConfiguration

/-! ### The bit cursor and the buffer -/

/-- R34, R10: `take` gives the next bits, the first one most significant, offset 0 being bit 7 of its
byte, and the cursor past them; it fails when they do not all fit. -/
def Obligations.TakeReadsMostSignificantFirst : Prop :=
  ∀ (m : Memory) (c : Pos) (n q : Nat), 1 ≤ n → n ≤ Config.takeMax → q = 8 * c.byteIndex + c.bitOffset.val →
    (8 * m.length < q + n → take m c n = .error (.insufficientInput c n)) ∧
      (q + n ≤ 8 * m.length → ∃ v, take m c n = .ok (v, Pos.ofAbs (q + n)) ∧
        ∀ k, k < n → ∃ b, m.memRead ((q + k) / 8) = some b ∧
          v.getMsbD k = b.getLsbD (7 - (q + k) % 8))

/-- R35: an extraction fails exactly when fewer bits remain than it asks for, and names itself. -/
def Obligations.TakeFailsExactlyWhenShort : Prop :=
  ∀ (m : Memory) (c : Pos) (n : Nat) (e : Error), 1 ≤ n → n ≤ 16 →
    (take m c n = .error e ↔ 8 * m.length - c.abs < n ∧ e = .insufficientInput c n)

/-- R13: advancing past offset 7 rolls over into the next byte. -/
def Obligations.AdvancingRollsOverBytes : Prop :=
  ∀ (i : Nat) (o : Fin 8) (n : Nat),
    ((⟨i, o⟩ : Pos).advance n).byteIndex = i + (o.val + n) / 8 ∧
      ((⟨i, o⟩ : Pos).advance n).bitOffset.val = (o.val + n) % 8 ∧
      (⟨i, o⟩ : Pos).advance n = Pos.ofAbs ((⟨i, o⟩ : Pos).abs + n)

/-- R43: the caller's write between transactions is what the block then reads, and it touches no
other byte of the buffer; during a transaction it is refused (log 10). That an index at or past the end is
written too, the buffer growing to hold it, is the model's choice (log 19), and no rule's. -/
def Obligations.CallerWritesBetweenTransactions : Prop :=
  ∀ (s : State) (i : Nat) (v : Byte), s.buf.wf →
    (s.request = none → s.cursor = none → ∃ t, storeByte i v s = .next t ∧
      t.buf.memRead i = some v ∧
      (∀ j, j ≠ i → j < s.buf.length → t.buf.memRead j = s.buf.memRead j) ∧ t.buf.wf) ∧
      (s.request ≠ none → storeByte i v s = .refused .bufferInUse)

/-- 92_eei_decisions.md D1: one request in flight; an idle block takes it and forgets the last
response. -/
def Obligations.OneRequestInFlight : Prop :=
  ∀ (s : State) (r : Request),
    (s.request ≠ none → post r s = .refused .requestInFlight) ∧
      (s.request = none → s.cursor = none →
        post r s = .next { s with request := some r, response := none })

/-- R40: one transaction depends on at most 32 bits from its start. -/
def Obligations.TransactionReadsAtMost32Bits : Prop :=
  ∀ (s s' : State) (r : Request), s.directAddrMode = s'.directAddrMode → s.request = some r →
    s'.request = some r → s.buf.length = s'.buf.length →
    (∀ k, k < 32 → s.buf.bit (r.start.abs + k) = s'.buf.bit (r.start.abs + k)) →
    ∃ res, step s = .next (respond res s) ∧ step s' = .next (respond res s')

/-- R39: no alignment. Where a buffer shows, from any bit position on, the bits that a successful decode
covered elsewhere, the decode there is the same but for the address and the positions. -/
def Obligations.DecodingIsTheSameAtEveryBitOffset : Prop :=
  ∀ (s s' t : State) (r r' : Request) (rec : Record) (next : Pos),
    s.directAddrMode = s'.directAddrMode → s.request = some r → s'.request = some r' →
    step s = .next t → t.response = some (.ok rec next) →
    r'.start.abs + 8 * rec.length ≤ 8 * s'.buf.length →
    (∀ k, k < 8 * rec.length → s.buf.bit (r.start.abs + k) = s'.buf.bit (r'.start.abs + k)) →
    step s' = .next (respond (.ok { rec with address := r'.addrIn }
      (r'.start.advance (8 * rec.length))) s')

/-! ### The immediate decoder -/

/-- R74, R38: a 16-bit literal is two 8-bit extractions, the first the low-order byte; it fails at the
byte that is missing. -/
def Obligations.SixteenBitLiteralIsLittleEndian : Prop :=
  ∀ (m : Memory) (c : Pos),
    (c.abs + 16 ≤ 8 * m.length → ∃ (lo hi : Byte) (v : Half),
        take m c 8 = .ok (lo, c.advance 8) ∧ take m (c.advance 8) 8 = .ok (hi, c.advance 16) ∧
        imm16 m c = .ok (.word v, c.advance 16) ∧ v.toNat = lo.toNat + hi.toNat * 256) ∧
      (c.abs + 8 ≤ 8 * m.length → 8 * m.length < c.abs + 16 →
        imm16 m c = .error (.insufficientInput (c.advance 8) 8)) ∧
      (8 * m.length < c.abs + 8 → imm16 m c = .error (.insufficientInput c 8))

/-- R73: an 8-bit literal is the next 8 bits, raw, tagged `Byte`; and `w` selects between the two
literals (R75). -/
def Obligations.EightBitLiteralAndItsSelection : Prop :=
  (∀ (m : Memory) (c : Pos) (v : Byte) (c1 : Pos), take m c 8 = .ok (v, c1) →
      imm8 m c = .ok (.byte v, c1)) ∧
    (∀ (m : Memory) (c : Pos), 8 * m.length < c.abs + 8 →
      imm8 m c = .error (.insufficientInput c 8)) ∧
    ∀ (m : Memory) (c : Pos), immOfWidth m c .byte = imm8 m c ∧ immOfWidth m c .word = imm16 m c

/-! ### The classifier -/

/-- R65, R60 to R64: four disjoint entries in their order, everything else unrecognized. -/
def Obligations.ClassifierFollowsTheTable : Prop :=
  dispatchTable.map Prod.fst = [0b1000#4, 0b1011#4, 0b1100#4, 0b1010#4] ∧
    (dispatchTable.map Prod.fst).Nodup ∧
    ∀ nib : Nibble, classify nib =
      if nib = 0b1000#4 then .regMemMove else if nib = 0b1011#4 then .immToReg
      else if nib = 0b1100#4 then .immToMem else if nib = 0b1010#4 then .accMove
      else .unrecognized

/-- R59: the nibble is read first; with fewer than 4 bits left the transaction ends there. -/
def Obligations.ShortStartGivesInsufficientInput : Prop :=
  ∀ (s : State) (r : Request), s.request = some r → 8 * s.buf.length < r.start.abs + 4 →
    step s = .next (respond (.err (.insufficientInput r.start 4)) s)

/-- R64, R90: a nibble outside the table answers UnsupportedOpcode with the nibble, the start and the
position after the nibble, whatever follows. -/
def Obligations.UnrecognizedNibbleGivesUnsupportedOpcode : Prop :=
  ∀ (s : State) (r : Request) (nib : Nibble) (c1 : Pos), s.request = some r →
    take s.buf r.start 4 = .ok (nib, c1) →
    nib ≠ 0b1000#4 → nib ≠ 0b1011#4 → nib ≠ 0b1100#4 → nib ≠ 0b1010#4 →
    step s = .next (respond (.err (.unsupportedOpcode nib r.start c1)) s)

/-- R62, R63: the two reserved families answer UnimplementedVariant after the nibble, whatever
follows. -/
def Obligations.ReservedFamiliesGiveUnimplementedVariant : Prop :=
  ∀ (s : State) (r : Request) (c1 : Pos), s.request = some r →
    (take s.buf r.start 4 = .ok (0b1100#4, c1) →
      step s = .next (respond (.err (.unimplementedVariant .immToMem 0b1100#4 r.start c1)) s)) ∧
    (take s.buf r.start 4 = .ok (0b1010#4, c1) →
      step s = .next (respond (.err (.unimplementedVariant .accMove 0b1010#4 r.start c1)) s))

/-- Inside a transaction each row of which only the nibble is read completes with its error: R62, R63
and, twelve times, R64. -/
def Obligations.NibbleRowsCompleteWithTheirError : Prop :=
  ∀ (s : State) (r : Request) (c : Pos), s.request = some r → s.cursor = some c →
    exec .movImmMem s =
        .next (respond (.err (.unimplementedVariant .immToMem 0b1100#4 r.start c)) s) ∧
      exec .movAcc s =
        .next (respond (.err (.unimplementedVariant .accMove 0b1010#4 r.start c)) s) ∧
      exec .unrecognized0000 s = .next (respond (.err (.unsupportedOpcode 0x0#4 r.start c)) s) ∧
      exec .unrecognized0001 s = .next (respond (.err (.unsupportedOpcode 0x1#4 r.start c)) s) ∧
      exec .unrecognized0010 s = .next (respond (.err (.unsupportedOpcode 0x2#4 r.start c)) s) ∧
      exec .unrecognized0011 s = .next (respond (.err (.unsupportedOpcode 0x3#4 r.start c)) s) ∧
      exec .unrecognized0100 s = .next (respond (.err (.unsupportedOpcode 0x4#4 r.start c)) s) ∧
      exec .unrecognized0101 s = .next (respond (.err (.unsupportedOpcode 0x5#4 r.start c)) s) ∧
      exec .unrecognized0110 s = .next (respond (.err (.unsupportedOpcode 0x6#4 r.start c)) s) ∧
      exec .unrecognized0111 s = .next (respond (.err (.unsupportedOpcode 0x7#4 r.start c)) s) ∧
      exec .unrecognized1001 s = .next (respond (.err (.unsupportedOpcode 0x9#4 r.start c)) s) ∧
      exec .unrecognized1101 s = .next (respond (.err (.unsupportedOpcode 0xD#4 r.start c)) s) ∧
      exec .unrecognized1110 s = .next (respond (.err (.unsupportedOpcode 0xE#4 r.start c)) s) ∧
      exec .unrecognized1111 s = .next (respond (.err (.unsupportedOpcode 0xF#4 r.start c)) s)

/-! ### Decoding and encoding -/

/-- Decode and encode agree, in both directions and at every bit position: the decoder answers an
instruction exactly when it is well formed under the configuration and the buffer shows its encoding;
the cursor is then past it (30_encoding.md R46 to R53). -/
def Obligations.FetchReadsExactlyTheEncoding : Prop :=
  ∀ (mode : DirectAddrMode) (m : Memory) (p : Pos) (i : Instr) (c : Pos),
    fetch mode m p = .ok (i, c) ↔
      i.wf mode = true ∧ m.holds p (encodeBits i) ∧ c = p.advance i.bits

/-- The bytes of every well-formed instruction, as the host numbers them, decode to it. -/
def Obligations.EncodedWordDecodesToItsInstruction : Prop :=
  ∀ i : Instr, i.wf Config.directAddrModeAtReset = true →
    decodeTableWord (8 * (encode i).length) (wordOfBytes (encode i)) = some i

/-- Sanity: bytes written out from the spec's encodings (R46, R47, its examples S1 to S3, one reserved
and one unrecognized nibble) decode to what they stand for. -/
def Obligations.SampleWordsDecode : Prop :=
  decodeTableWord 16 0xD889 = some (.movRegMem 0b10#2 .toRm .word 0b011#3 (.reg 0b000#3)) ∧
    decodeTableWord 24 0x05408B =
      some (.movRegMem 0b10#2 .toReg .word 0b000#3 (.disp8 0b000#3 0x05#8)) ∧
    decodeTableWord 24 0x0005B8 = some (.movImmReg 0b000#3 (.word 0x0005#16)) ∧
    decodeTableWord 8 0xC6 = some .movImmMem ∧ decodeTableWord 8 0xA1 = some .movAcc ∧
    decodeTableWord 8 0xF4 = some .unrecognized1111

/-- A step runs the decoded instruction: with the cursor past its last field. -/
def Obligations.StepRunsTheDecodedInstruction : Prop :=
  ∀ (s : State) (r : Request) (i : Instr), s.request = some r →
    i.wf s.directAddrMode = true → s.buf.holds r.start (encodeBits i) →
    step s = exec i { s with cursor := some (r.start.advance i.bits) }

/-- What the caller loads for the host is what the next step runs (log 11, log 12);
the buffer grows to hold it (log 19). -/
def Obligations.LoadedWordIsTheNextInstruction : Prop :=
  ∀ (s : State) (nbits w : Nat) (i : Instr), s.buf.wf →
    s.directAddrMode = Config.directAddrModeAtReset → decodeTableWord nbits w = some i →
    step (s.withFetchWord nbits w) =
      exec i { s.withFetchWord nbits w with
                 cursor := some (s.requestOrFirst.start.advance i.bits) }

/-! ### MOV register/memory to and from register -/

/-- R18: the base combinations in field order. -/
def Obligations.BaseCombinationsInFieldOrder : Prop :=
  Address.ofRm 0b000#3 = .bxSi ∧ Address.ofRm 0b001#3 = .bxDi ∧ Address.ofRm 0b010#3 = .bpSi ∧
    Address.ofRm 0b011#3 = .bpDi ∧ Address.ofRm 0b100#3 = .si ∧ Address.ofRm 0b101#3 = .di ∧
    Address.ofRm 0b110#3 = .bp ∧ Address.ofRm 0b111#3 = .bx

/-- R77, R78 at the meaning: inside a transaction every operand form that the configuration decodes
completes with the record of its two operands, the direction flag giving the roles. -/
def Obligations.RegMemMoveCompletes : Prop :=
  ∀ (s : State) (r : Request) (c : Pos) (xx : BitVec 2) (d : Direction) (w : Width) (reg : Field3)
    (rm : RmOperand) (loc : Location), s.request = some r → s.cursor = some c →
    ((∃ x, rm = .reg x ∧ loc = .reg ⟨x, w⟩) ∨
      (∃ x, rm = .bare x ∧ (x ≠ 0b110#3 ∨ s.directAddrMode = .reference) ∧
        loc = .mem (.bare (Address.ofRm x))) ∨
      (∃ x v, rm = .disp8 x v ∧ loc = .mem (.withOffset (Address.ofRm x) (.byte v))) ∨
      (∃ x v, rm = .disp16 x v ∧ loc = .mem (.withOffset (Address.ofRm x) (.word v))) ∨
      (∃ v, rm = .direct v ∧ s.directAddrMode = .architectural ∧ loc = .mem (.direct (.word v)))) →
    exec (.movRegMem xx d w reg rm) s =
      .next { s with
        request := none
        cursor := none
        response := some (.ok
          { address := r.addrIn
            length := (c.abs - r.start.abs) / 8
            kind := .movRegMemToRegMem
            dst := if d = .toReg then .reg ⟨reg, w⟩ else loc
            src := .loc (if d = .toReg then loc else .reg ⟨reg, w⟩) } c) }

/-- R67: mod 11, from bits to record. -/
def Obligations.RegisterDirectMoveFromBits : Prop :=
  ∀ (s : State) (r : Request) (xx : BitVec 2) (d : Direction) (w : Width) (reg rm : Field3),
    s.request = some r →
    s.buf.holds r.start (bitsOfBytes
      [(0b1000#4 ++ xx ++ d.bit ++ w.bit : BitVec 8), (0b11#2 ++ reg ++ rm : BitVec 8)]) →
    step s = .next (respond (.ok
      { address := r.addrIn, length := 2, kind := .movRegMemToRegMem
        dst := if d = .toReg then .reg ⟨reg, w⟩ else .reg ⟨rm, w⟩
        src := .loc (if d = .toReg then .reg ⟨rm, w⟩ else .reg ⟨reg, w⟩) }
      (r.start.advance 16)) s)

/-- R68 and R71 under REFERENCE: mod 00 without a displacement, from bits to record. -/
def Obligations.NoDisplacementMoveFromBits : Prop :=
  ∀ (s : State) (r : Request) (xx : BitVec 2) (d : Direction) (w : Width) (reg rm : Field3),
    s.request = some r → (rm ≠ 0b110#3 ∨ s.directAddrMode = .reference) →
    s.buf.holds r.start (bitsOfBytes
      [(0b1000#4 ++ xx ++ d.bit ++ w.bit : BitVec 8), (0b00#2 ++ reg ++ rm : BitVec 8)]) →
    step s = .next (respond (.ok
      { address := r.addrIn, length := 2, kind := .movRegMemToRegMem
        dst := if d = .toReg then .reg ⟨reg, w⟩ else .mem (.bare (Address.ofRm rm))
        src := .loc (if d = .toReg then .mem (.bare (Address.ofRm rm)) else .reg ⟨reg, w⟩) }
      (r.start.advance 16)) s)

/-- R69: mod 01, from bits to record; a displacement byte that is missing is the error. -/
def Obligations.ByteDisplacementMoveFromBits : Prop :=
  ∀ (s : State) (r : Request) (xx : BitVec 2) (d : Direction) (w : Width) (reg rm : Field3),
    s.request = some r →
    s.buf.holds r.start (bitsOfBytes
      [(0b1000#4 ++ xx ++ d.bit ++ w.bit : BitVec 8), (0b01#2 ++ reg ++ rm : BitVec 8)]) →
    (∀ (v : Byte) (c : Pos), take s.buf (r.start.advance 16) 8 = .ok (v, c) →
      step s = .next (respond (.ok
        { address := r.addrIn, length := 3, kind := .movRegMemToRegMem
          dst := if d = .toReg then .reg ⟨reg, w⟩
                 else .mem (.withOffset (Address.ofRm rm) (.byte v))
          src := .loc (if d = .toReg then .mem (.withOffset (Address.ofRm rm) (.byte v))
                       else .reg ⟨reg, w⟩) }
        (r.start.advance 24)) s)) ∧
      (8 * s.buf.length < r.start.abs + 24 →
        step s = .next (respond (.err (.insufficientInput (r.start.advance 16) 8)) s))

/-- R70: mod 10, from bits to record; the displacement is little-endian and keeps its `Word` tag; the
first missing byte is the error. -/
def Obligations.WordDisplacementMoveFromBits : Prop :=
  ∀ (s : State) (r : Request) (xx : BitVec 2) (d : Direction) (w : Width) (reg rm : Field3),
    s.request = some r →
    s.buf.holds r.start (bitsOfBytes
      [(0b1000#4 ++ xx ++ d.bit ++ w.bit : BitVec 8), (0b10#2 ++ reg ++ rm : BitVec 8)]) →
    (∀ (lo hi : Byte) (c : Pos), take s.buf (r.start.advance 16) 8 = .ok (lo, r.start.advance 24) →
      take s.buf (r.start.advance 24) 8 = .ok (hi, c) →
      step s = .next (respond (.ok
        { address := r.addrIn, length := 4, kind := .movRegMemToRegMem
          dst := if d = .toReg then .reg ⟨reg, w⟩
                 else .mem (.withOffset (Address.ofRm rm) (.word (hi ++ lo)))
          src := .loc (if d = .toReg then .mem (.withOffset (Address.ofRm rm) (.word (hi ++ lo)))
                       else .reg ⟨reg, w⟩) }
        (r.start.advance 32)) s)) ∧
      (8 * s.buf.length < r.start.abs + 24 →
        step s = .next (respond (.err (.insufficientInput (r.start.advance 16) 8)) s)) ∧
      (r.start.abs + 24 ≤ 8 * s.buf.length → 8 * s.buf.length < r.start.abs + 32 →
        step s = .next (respond (.err (.insufficientInput (r.start.advance 24) 8)) s))

/-- R71: mod 00 with rm 110 under each value of DIRECT_ADDR_MODE. -/
def Obligations.DirectAddressCaseUnderEachMode : Prop :=
  ∀ (s : State) (r : Request) (xx : BitVec 2) (d : Direction) (w : Width) (reg : Field3),
    s.request = some r →
    s.buf.holds r.start (bitsOfBytes
      [(0b1000#4 ++ xx ++ d.bit ++ w.bit : BitVec 8), (0b00#2 ++ reg ++ 0b110#3 : BitVec 8)]) →
    (s.directAddrMode = .reference →
      step s = .next (respond (.ok
        { address := r.addrIn, length := 2, kind := .movRegMemToRegMem
          dst := if d = .toReg then .reg ⟨reg, w⟩ else .mem (.bare .bp)
          src := .loc (if d = .toReg then .mem (.bare .bp) else .reg ⟨reg, w⟩) }
        (r.start.advance 16)) s)) ∧
    (s.directAddrMode = .refuse →
      step s = .next (respond (.err
        (.unimplementedVariant .regMemMove 0b1000#4 r.start (r.start.advance 16))) s)) ∧
    (s.directAddrMode = .architectural →
      (∀ (lo hi : Byte) (c : Pos),
        take s.buf (r.start.advance 16) 8 = .ok (lo, r.start.advance 24) →
        take s.buf (r.start.advance 24) 8 = .ok (hi, c) →
        step s = .next (respond (.ok
          { address := r.addrIn, length := 4, kind := .movRegMemToRegMem
            dst := if d = .toReg then .reg ⟨reg, w⟩ else .mem (.direct (.word (hi ++ lo)))
            src := .loc (if d = .toReg then .mem (.direct (.word (hi ++ lo)))
                         else .reg ⟨reg, w⟩) }
          (r.start.advance 32)) s)) ∧
      (8 * s.buf.length < r.start.abs + 24 →
        step s = .next (respond (.err (.insufficientInput (r.start.advance 16) 8)) s)) ∧
      (r.start.abs + 24 ≤ 8 * s.buf.length → 8 * s.buf.length < r.start.abs + 32 →
        step s = .next (respond (.err (.insufficientInput (r.start.advance 24) 8)) s)))

/-- R54: the two discarded bits of format A do not change the result. -/
def Obligations.DiscardedBitsDoNotMatter : Prop :=
  ∀ (s s' : State) (r : Request) (c1 : Pos), s.directAddrMode = s'.directAddrMode →
    s.request = some r → s'.request = some r → s.buf.length = s'.buf.length →
    take s.buf r.start 4 = .ok (0b1000#4, c1) →
    (∀ q, q ≠ r.start.abs + 4 → q ≠ r.start.abs + 5 → s.buf.bit q = s'.buf.bit q) →
    ∃ res, step s = .next (respond res s) ∧ step s' = .next (respond res s')

/-- R77, R60, R66: format A whose first two bytes do not fit ends at the one field that starts inside
the buffer and does not fit, named by its position and width, in every DIRECT_ADDR_MODE (R92). -/
def Obligations.TruncatedRegMemMoveNamesTheField : Prop :=
  ∀ (s : State) (r : Request) (c1 : Pos), s.request = some r →
    take s.buf r.start 4 = .ok (0b1000#4, c1) → 8 * s.buf.length < r.start.abs + 16 →
    ∃ off need, (off, need) ∈ [(4, 2), (6, 1), (7, 1), (8, 2), (10, 3), (13, 3)] ∧
      r.start.abs + off ≤ 8 * s.buf.length ∧ 8 * s.buf.length < r.start.abs + off + need ∧
      step s = .next (respond (.err (.insufficientInput (r.start.advance off) need)) s)

/-- R86: two format-A encodings that differ in `d` alone swap the operands of the record, or give the
same error. -/
def Obligations.DirectionBitSymmetry : Prop :=
  ∀ (s s' : State) (r : Request) (c1 : Pos), s.directAddrMode = s'.directAddrMode →
    s.request = some r → s'.request = some r → s.buf.length = s'.buf.length →
    take s.buf r.start 4 = .ok (0b1000#4, c1) →
    (∀ q, s.buf.bit q = s'.buf.bit q ↔ q ≠ r.start.abs + 6) →
    (∃ (rec rec' : Record) (next : Pos) (x y : Location),
        step s = .next (respond (.ok rec next) s) ∧
        step s' = .next (respond (.ok rec' next) s') ∧ rec.length = rec'.length ∧
        rec.dst = x ∧ rec.src = .loc y ∧ rec'.dst = y ∧ rec'.src = .loc x) ∨
      ∃ e : Error, step s = .next (respond (.err e) s) ∧ step s' = .next (respond (.err e) s')

/-! ### MOV immediate to register -/

/-- R79 at the meaning: inside a transaction both widths complete with the raw immediate. -/
def Obligations.ImmRegMoveCompletes : Prop :=
  ∀ (s : State) (r : Request) (c : Pos) (reg : Field3), s.request = some r → s.cursor = some c →
    (∀ v : Byte, exec (.movImmReg reg (.byte v)) s = .next { s with
        request := none
        cursor := none
        response := some (.ok
          { address := r.addrIn, length := (c.abs - r.start.abs) / 8, kind := .movImmToReg
            dst := .reg ⟨reg, .byte⟩, src := .imm (.byte v) } c) }) ∧
    ∀ v : Half, exec (.movImmReg reg (.word v)) s = .next { s with
        request := none
        cursor := none
        response := some (.ok
          { address := r.addrIn, length := (c.abs - r.start.abs) / 8, kind := .movImmToReg
            dst := .reg ⟨reg, .word⟩, src := .imm (.word v) } c) }

/-- R79: from bits to record, for both widths, with the error of the first missing byte. -/
def Obligations.ImmediateMoveFromBits : Prop :=
  ∀ (s : State) (r : Request) (reg : Field3), s.request = some r →
    (s.buf.holds r.start (bitsOfBytes [(0b1011#4 ++ 0b0#1 ++ reg : BitVec 8)]) →
      (∀ (v : Byte) (c : Pos), take s.buf (r.start.advance 8) 8 = .ok (v, c) →
        step s = .next (respond (.ok
          { address := r.addrIn, length := 2, kind := .movImmToReg
            dst := .reg ⟨reg, .byte⟩, src := .imm (.byte v) } (r.start.advance 16)) s)) ∧
      (8 * s.buf.length < r.start.abs + 16 →
        step s = .next (respond (.err (.insufficientInput (r.start.advance 8) 8)) s))) ∧
    (s.buf.holds r.start (bitsOfBytes [(0b1011#4 ++ 0b1#1 ++ reg : BitVec 8)]) →
      (∀ (lo hi : Byte) (c : Pos),
        take s.buf (r.start.advance 8) 8 = .ok (lo, r.start.advance 16) →
        take s.buf (r.start.advance 16) 8 = .ok (hi, c) →
        step s = .next (respond (.ok
          { address := r.addrIn, length := 3, kind := .movImmToReg
            dst := .reg ⟨reg, .word⟩, src := .imm (.word (hi ++ lo)) } (r.start.advance 24)) s)) ∧
      (8 * s.buf.length < r.start.abs + 16 →
        step s = .next (respond (.err (.insufficientInput (r.start.advance 8) 8)) s)) ∧
      (r.start.abs + 16 ≤ 8 * s.buf.length → 8 * s.buf.length < r.start.abs + 24 →
        step s = .next (respond (.err (.insufficientInput (r.start.advance 16) 8)) s)))

/-- R79: format B whose first byte does not fit (a start that is not byte-aligned) ends at `w` or at
`reg`. -/
def Obligations.TruncatedImmRegMoveNamesTheField : Prop :=
  ∀ (s : State) (r : Request) (c1 : Pos), s.request = some r →
    take s.buf r.start 4 = .ok (0b1011#4, c1) → 8 * s.buf.length < r.start.abs + 8 →
    ∃ off need, (off, need) ∈ [(4, 1), (5, 3)] ∧
      r.start.abs + off ≤ 8 * s.buf.length ∧ 8 * s.buf.length < r.start.abs + off + need ∧
      step s = .next (respond (.err (.insufficientInput (r.start.advance off) need)) s)

/-! ### Records and errors of every transaction -/

/-- R81, R82, R83: a record's address is the caller's, its length 2, 3 or 4 bytes, the bits consumed
divided by 8; the next start is that far on, with the start's bit offset. -/
def Obligations.LengthConservation : Prop :=
  ∀ (s t : State) (r : Request) (rec : Record) (next : Pos), s.request = some r →
    step s = .next t → t.response = some (.ok rec next) →
    rec.address = r.addrIn ∧ (rec.length = 2 ∨ rec.length = 3 ∨ rec.length = 4) ∧
      rec.length = (next.abs - r.start.abs) / 8 ∧
      next = Pos.ofAbs (r.start.abs + 8 * rec.length) ∧
      next.bitOffset = r.start.bitOffset ∧ next.abs ≤ 8 * s.buf.length

/-- R24: a successful transaction carries the kind of its nibble's family, one of two. -/
def Obligations.OnlyTwoKindsSucceed : Prop :=
  ∀ (s t : State) (r : Request) (rec : Record) (next : Pos), s.request = some r →
    step s = .next t → t.response = some (.ok rec next) →
    ∃ nib c1, take s.buf r.start 4 = .ok (nib, c1) ∧
      ((classify nib = .regMemMove ∧ rec.kind = .movRegMemToRegMem) ∨
        (classify nib = .immToReg ∧ rec.kind = .movImmToReg))

/-- R19: `Direct` is produced under ARCHITECTURAL only, and always with a `Word`. -/
def Obligations.DirectOnlyUnderArchitectural : Prop :=
  ∀ (s t : State) (rec : Record) (next : Pos) (a : Immediate), s.request ≠ none →
    step s = .next t → t.response = some (.ok rec next) →
    (rec.dst = .mem (.direct a) ∨ rec.src = .loc (.mem (.direct a))) →
    s.directAddrMode = .architectural ∧ ∃ v : Half, a = .word v

/-- R89: InsufficientInput names the field that did not fit: its width is one the block reads, it
starts at or after the start, inside the 32 bits a transaction may read, and it does not fit. -/
def Obligations.InsufficientInputIsPrecise : Prop :=
  ∀ (s t : State) (r : Request) (p : Pos) (need : Nat), s.request = some r → step s = .next t →
    t.response = some (.err (.insufficientInput p need)) →
    (need = 1 ∨ need = 2 ∨ need = 3 ∨ need = 4 ∨ need = 8) ∧ r.start.abs ≤ p.abs ∧
      p.abs + need ≤ r.start.abs + 32 ∧ 8 * s.buf.length < p.abs + need ∧
      (p = r.start ∨ p.abs ≤ 8 * s.buf.length)

/-- R60, R79 at a byte-aligned start: only the nibble, `mod` and whole bytes can be missing. -/
def Obligations.AlignedInputEndsAtByteBoundaries : Prop :=
  ∀ (s t : State) (r : Request) (p : Pos) (need : Nat), s.request = some r →
    r.start.bitOffset = 0 → step s = .next t →
    t.response = some (.err (.insufficientInput p need)) →
    p.bitOffset = 0 ∧
      ((need = 4 ∧ p = r.start) ∨ (need = 2 ∧ p = r.start.advance 8) ∨
        (need = 8 ∧ (p = r.start.advance 8 ∨ p = r.start.advance 16 ∨ p = r.start.advance 24)))

/-- R87: two successful decodes under one configuration, start and address give the same record and
the same next position exactly when their encodings are equal up to the two collapses: the discarded
bits, and the direction of a register-to-register move. `Bare(BP)` arises from mod 00 with rm 110 under
REFERENCE only. -/
def Obligations.RoundTripUpToTwoCollapses : Prop :=
  (∀ (s s' t t' : State) (r : Request) (i j : Instr) (c c' : Pos) (rec rec' : Record)
    (next next' : Pos), s.directAddrMode = s'.directAddrMode → s.request = some r →
    s'.request = some r → fetch s.directAddrMode s.buf r.start = .ok (i, c) →
    fetch s'.directAddrMode s'.buf r.start = .ok (j, c') → step s = .next t →
    step s' = .next t' → t.response = some (.ok rec next) →
    t'.response = some (.ok rec' next') →
    ((rec = rec' ∧ next = next') ↔
      (i = j ∨
        (∃ xx xx' d w reg rm, i = .movRegMem xx d w reg rm ∧ j = .movRegMem xx' d w reg rm) ∨
        (∃ xx xx' w a b, i = .movRegMem xx .toRm w a (.reg b) ∧
          j = .movRegMem xx' .toReg w b (.reg a)) ∨
        (∃ xx xx' w a b, i = .movRegMem xx .toReg w b (.reg a) ∧
          j = .movRegMem xx' .toRm w a (.reg b))))) ∧
    ∀ (s t : State) (r : Request) (i : Instr) (c : Pos) (rec : Record) (next : Pos),
      s.request = some r → fetch s.directAddrMode s.buf r.start = .ok (i, c) →
      step s = .next t → t.response = some (.ok rec next) →
      (rec.dst = .mem (.bare .bp) ∨ rec.src = .loc (.mem (.bare .bp))) →
      s.directAddrMode = .reference ∧
        ∃ xx d w reg, i = .movRegMem xx d w reg (.bare 0b110#3)

/-! ### Invariant -/

/-- Every step keeps the block's invariant: canonical buffer, no cursor between transactions, an
address of ADDR_W bits in request and record, only legal responses (R19, R24 to R26). -/
def Obligations.StepKeepsTheInvariant : Prop :=
  ∀ (s t : State), s.Inv → step s = .next t → t.Inv

/-- The invariant holds after reset in every configuration. -/
def Obligations.ResetHasTheInvariant : Prop :=
  (∀ m, (State.resetIn m).Inv) ∧ State.reset.Inv

/-- The environment's operations keep it too: a request of ADDR_W bits, a byte stored, a reset, the
host's loading of a word where a waiting request has ADDR_W bits. That a store or a load past the buffer's
end enlarges it is the model's choice (log 19). -/
def Obligations.EnvironmentKeepsTheInvariant : Prop :=
  ∀ (s : State), s.Inv →
    (∀ r t, r.addrIn < 2 ^ Config.addrW → post r s = .next t → t.Inv) ∧
      (∀ i v t, storeByte i v s = .next t → t.Inv) ∧ (applyReset s).Inv ∧
      ∀ nbits w, (s.withFetchWord nbits w).Inv

/-! ### The caller's stream -/

/-- R101: in a stream the start of the next instruction is the `next` of the one before, and its
address is further on by the length. -/
def Obligations.StreamFollowsNext : Prop :=
  ∀ (policy : Request → Error → Option Request) (n : Nat) (s : State) (r0 r r' : Request)
    (rec : Record) (next : Pos) (res' : Result) (k : Nat),
    (stream policy n r0 s)[k]? = some (r, .ok rec next) →
    (stream policy n r0 s)[k + 1]? = some (r', res') →
    r'.start = next ∧ r'.addrIn = r.addrIn + rec.length

/-- R85: each record of a stream covers the bits from its start to its next start, and two records of
one stream never overlap. -/
def Obligations.StreamRecordsNeverOverlap : Prop :=
  ∀ (n : Nat) (s : State) (r0 r r' : Request) (rec : Record) (next : Pos) (res' : Result)
    (j k : Nat), j < k →
    (stream stopPolicy n r0 s)[j]? = some (r, .ok rec next) →
    (stream stopPolicy n r0 s)[k]? = some (r', res') →
    next.abs = r.start.abs + 8 * rec.length ∧ r.start.abs < next.abs ∧ next.abs ≤ r'.start.abs

/-- R100: under the caller's loop the address stays the first address plus the byte index gone, and the
bit offset stays the first one (R39). -/
def Obligations.StreamAddressesFollowTheStarts : Prop :=
  ∀ (n : Nat) (s : State) (r0 r : Request) (res : Result),
    (r, res) ∈ stream stopPolicy n r0 s →
    r.start.bitOffset = r0.start.bitOffset ∧ r0.start.byteIndex ≤ r.start.byteIndex ∧
      r.addrIn = r0.addrIn + (r.start.byteIndex - r0.start.byteIndex)

/-- R100: at the end of a byte-aligned buffer the loop stops, whatever the caller's policy is. -/
def Obligations.StreamStopsAtTheNormalEnd : Prop :=
  ∀ (policy : Request → Error → Option Request) (n : Nat) (s : State) (r : Request),
    s.request = none → s.cursor = none → r.start = ⟨s.buf.length, 0⟩ →
    stream policy (n + 1) r s = [(r, .err (.insufficientInput ⟨s.buf.length, 0⟩ 4))]

/-! ### Bus tags -/

/-- R30: the tag of every variant. -/
def Obligations.BusTagsFollowTheTable : Prop :=
  (∀ i p, (Result.ok i p).tag = 0) ∧ (∀ e, (Result.err e).tag = 1) ∧
    (∀ p n, (Error.insufficientInput p n).tag = 0) ∧
    (∀ n p q, (Error.unsupportedOpcode n p q).tag = 1) ∧
    (∀ f n p q, (Error.unimplementedVariant f n p q).tag = 2) ∧
    ([Family.regMemMove, .immToReg, .immToMem, .accMove, .unrecognized].map Family.tag =
      [0, 1, 2, 3, 4]) ∧
    ([Op.movRegMemToRegMem, .movImmToReg, .movImmToMem, .unrecognized].map Op.tag =
      [0, 1, 2, 3]) ∧
    (∀ r, (Location.reg r).tag = 0) ∧ (∀ e, (Location.mem e).tag = 1) ∧
    (∀ l, (Source.loc l).tag = 0) ∧ (∀ i, (Source.imm i).tag = 1) ∧
    (∀ a, (EffectiveAddress.bare a).tag = 0) ∧
    (∀ a i, (EffectiveAddress.withOffset a i).tag = 1) ∧
    (∀ i, (EffectiveAddress.direct i).tag = 2) ∧
    (∀ v, (Immediate.byte v).tag = 0) ∧ (∀ v, (Immediate.word v).tag = 1) ∧
    (∀ rm, (Address.ofRm rm).tag = rm.toNat) ∧
    ∀ x, (Register.mk x .byte).tag = (x.toNat, 0) ∧ (Register.mk x .word).tag = (x.toNat, 1)
end

