-- ==== Sys2Proof/Laws/Memory.lean ====
section
/-! SUPPORT. The buffer's laws: every operation keeps the canonical form, a byte reads as it was last
stored, other bytes are left alone. -/

namespace Sys2Proof

theorem Memory.lookup_of_lt {i : Nat} {l : List Host.Cell} (h : ∀ c ∈ l, i < c.1) :
    Memory.lookup l i = Memory.unlisted := by
  induction l with
  | nil => rfl
  | cons c l ih =>
    have hc := h c (by simp)
    simp only [Memory.lookup]
    rw [if_neg (by omega)]
    exact ih fun d hd => h d (by simp [hd])

/-- Reading after a store into cells whose indices strictly rise. -/
theorem Memory.lookup_storeCell {l : List Host.Cell} (hl : l.Pairwise (fun x y => x.1 < y.1))
    (i : Nat) (v : Byte) (j : Nat) :
    Memory.lookup (Memory.storeCell i v l) j = if i = j then v else Memory.lookup l j := by
  induction l with
  | nil =>
    by_cases hv : v = Memory.unlisted <;> by_cases hij : i = j <;>
      simp [Memory.storeCell, Memory.lookup, hv, hij]
  | cons c l ih =>
    obtain ⟨hc, hl'⟩ := List.pairwise_cons.mp hl
    by_cases h1 : c.1 < i
    · simp only [Memory.storeCell, if_pos h1, Memory.lookup, ih hl']
      by_cases hcj : c.1 = j
      · rw [if_pos hcj, if_neg (by omega), if_pos hcj]
      · rw [if_neg hcj, if_neg hcj]
    · by_cases h2 : c.1 = i
      · by_cases hv : v = Memory.unlisted
        · simp only [Memory.storeCell, if_neg h1, if_pos h2, if_pos hv, Memory.lookup]
          by_cases hij : i = j
          · rw [if_pos hij, hv]
            exact Memory.lookup_of_lt fun d hd => by have := hc d hd; omega
          · rw [if_neg hij, if_neg (by omega)]
        · simp only [Memory.storeCell, if_neg h1, if_pos h2, if_neg hv, Memory.lookup]
          by_cases hij : i = j
          · rw [if_pos hij, if_pos hij]
          · rw [if_neg hij, if_neg hij, if_neg (by omega)]
      · by_cases hv : v = Memory.unlisted
        · simp only [Memory.storeCell, if_neg h1, if_neg h2, if_pos hv]
          by_cases hij : i = j
          · rw [if_pos hij, hv]
            refine Memory.lookup_of_lt fun d hd => ?_
            rcases List.mem_cons.mp hd with rfl | hd
            · omega
            · have := hc d hd; omega
          · rw [if_neg hij]
        · simp only [Memory.storeCell, if_neg h1, if_neg h2, if_neg hv]
          rw [Memory.lookup]

theorem Memory.mem_storeCell {i : Nat} {v : Byte} {l : List Host.Cell} {d : Host.Cell}
    (h : d ∈ Memory.storeCell i v l) : d ∈ l ∨ (d = (i, v) ∧ v ≠ Memory.unlisted) := by
  induction l with
  | nil =>
    by_cases hv : v = Memory.unlisted <;> simp [Memory.storeCell, hv] at h ⊢
    exact h
  | cons c l ih =>
    unfold Memory.storeCell at h
    split at h
    · rcases List.mem_cons.mp h with rfl | h
      · exact .inl (by simp)
      · exact (ih h).imp (fun h => by simp [h]) id
    · split at h <;> split at h
      · exact .inl (by simp [h])
      · rename_i hv
        rcases List.mem_cons.mp h with rfl | h
        · exact .inr ⟨rfl, hv⟩
        · exact .inl (by simp [h])
      · exact .inl h
      · rename_i hv
        rcases List.mem_cons.mp h with rfl | h
        · exact .inr ⟨rfl, hv⟩
        · exact .inl h

theorem Memory.storeCell_rising {l : List Host.Cell} (hl : l.Pairwise (fun x y => x.1 < y.1))
    (i : Nat) (v : Byte) : (Memory.storeCell i v l).Pairwise (fun x y => x.1 < y.1) := by
  induction l with
  | nil => by_cases hv : v = Memory.unlisted <;> simp [Memory.storeCell, hv]
  | cons c l ih =>
    obtain ⟨hc, hl'⟩ := List.pairwise_cons.mp hl
    unfold Memory.storeCell
    split
    · rename_i h1
      refine List.pairwise_cons.mpr ⟨fun d hd => ?_, ih hl'⟩
      rcases Memory.mem_storeCell hd with hd | ⟨rfl, -⟩
      · exact hc d hd
      · exact h1
    · rename_i h1
      split
      · rename_i h2
        split
        · exact hl'
        · exact List.pairwise_cons.mpr ⟨fun d hd => by have := hc d hd; simp; omega, hl'⟩
      · split
        · exact hl
        · refine List.pairwise_cons.mpr ⟨fun d hd => ?_, hl⟩
          rcases List.mem_cons.mp hd with rfl | hd
          · simp; omega
          · have := hc d hd; simp; omega

/-- A store keeps the canonical form. -/
theorem Memory.store_wf {m : Memory} (h : m.wf) (i : Nat) (v : Byte) : (m.store i v).wf := by
  refine ⟨Memory.storeCell_rising h.1 i v, fun d hd => ?_⟩
  rcases Memory.mem_storeCell hd with hd | ⟨rfl, hv⟩
  · have := h.2 d hd
    exact ⟨this.1, by simp only [Memory.store]; omega⟩
  · exact ⟨hv, by simp only [Memory.store]; omega⟩

/-- Read after write. -/
theorem Memory.byteAt_store {m : Memory} (h : m.wf) (i : Nat) (v : Byte) (j : Nat) :
    (m.store i v).byteAt j = if i = j then v else m.byteAt j :=
  Memory.lookup_storeCell h.1 i v j

@[simp] theorem Memory.store_length (m : Memory) (i : Nat) (v : Byte) :
    (m.store i v).length = max m.length (i + 1) := rfl

theorem Memory.setBit_wf {m : Memory} (h : m.wf) (q : Nat) (v : Bool) : (m.setBit q v).wf :=
  Memory.store_wf h _ _

theorem Memory.putBits_wf {m : Memory} (h : m.wf) (q : Nat) (vs : List Bool) :
    (m.putBits q vs).wf := by
  induction vs generalizing m q with
  | nil => exact h
  | cons v vs ih => exact ih (Memory.setBit_wf h q v) (q + 1)

theorem getLsbD_setBitOf (b : Byte) {j : Nat} (hj : j < 8) (v : Bool) (k : Nat) :
    (setBitOf b j v).getLsbD k = if k = j then v else b.getLsbD k := by
  by_cases hk : k < 8
  · interval_cases j <;> interval_cases k <;> cases v <;> simp [setBitOf]
  · have : ∀ x : Byte, x.getLsbD k = false := fun x => BitVec.getLsbD_of_ge _ _ (by omega)
    rw [this, this, if_neg (by omega)]

/-- Bit `p` after bit `q` has been set. -/
theorem Memory.bit_setBit {m : Memory} (h : m.wf) (q : Nat) (v : Bool) (p : Nat) :
    (m.setBit q v).bit p = if q = p then v else m.bit p := by
  unfold Memory.bit Memory.setBit
  rw [Memory.byteAt_store h]
  by_cases hb : q / 8 = p / 8
  · rw [if_pos hb, getLsbD_setBitOf _ (by omega)]
    by_cases hq : q = p
    · subst hq; simp
    · rw [if_neg (by omega), if_neg hq, hb]
  · rw [if_neg hb, if_neg (by rintro rfl; exact hb rfl)]

theorem Memory.le_length_putBits (m : Memory) (q : Nat) (vs : List Bool) :
    m.length ≤ (m.putBits q vs).length := by
  induction vs generalizing m q with
  | nil => exact Nat.le_refl _
  | cons v vs ih =>
    exact Nat.le_trans (Nat.le_max_left _ _) (ih (m.setBit q v) (q + 1))

theorem Memory.bitLength_putBits (m : Memory) (q : Nat) (vs : List Bool) (hv : vs ≠ []) :
    q + vs.length ≤ (m.putBits q vs).bitLength := by
  induction vs generalizing m q with
  | nil => exact absurd rfl hv
  | cons v vs ih =>
    cases vs with
    | nil =>
      simp only [Memory.putBits, Memory.setBit, Memory.bitLength, Memory.store_length,
        List.length_singleton]
      omega
    | cons v' vs =>
      have := ih (m.setBit q v) (q + 1) (by simp)
      simp only [Memory.putBits, List.length_cons] at this ⊢
      omega

/-- Bit `p` after a run of bits has been put from bit `q` on. -/
theorem Memory.bit_putBits {m : Memory} (h : m.wf) (q : Nat) (vs : List Bool) (p : Nat) :
    (m.putBits q vs).bit p =
      if q ≤ p ∧ p < q + vs.length then vs.getD (p - q) false else m.bit p := by
  induction vs generalizing m q with
  | nil => simp only [Memory.putBits, List.length_nil]; rw [if_neg (by omega)]
  | cons v vs ih =>
    rw [Memory.putBits, ih (Memory.setBit_wf h q v), Memory.bit_setBit h]
    simp only [List.length_cons]
    by_cases h1 : q + 1 ≤ p ∧ p < q + 1 + vs.length
    · rw [if_pos h1, if_pos (by omega), show p - q = (p - (q + 1)) + 1 by omega]
      rfl
    · rw [if_neg h1]
      by_cases h2 : q = p
      · subst h2
        rw [if_pos rfl, if_pos (by omega)]
        simp
      · rw [if_neg h2, if_neg (by omega)]

theorem Memory.cellsFrom_spec (bs : List Byte) (i : Nat) :
    (Memory.cellsFrom i bs).Pairwise (fun x y => x.1 < y.1) ∧
      (∀ c ∈ Memory.cellsFrom i bs, c.2 ≠ Memory.unlisted ∧ i ≤ c.1 ∧ c.1 < i + bs.length) ∧
        ∀ j, Memory.lookup (Memory.cellsFrom i bs) (i + j) = bs.getD j Memory.unlisted := by
  induction bs generalizing i with
  | nil => simp [Memory.cellsFrom, Memory.lookup]
  | cons b bs ih =>
    obtain ⟨h1, h2, h3⟩ := ih (i + 1)
    have h4 : ∀ j, Memory.lookup (Memory.cellsFrom (i + 1) bs) (i + (j + 1)) =
        bs.getD j Memory.unlisted := fun j => by
      rw [show i + (j + 1) = i + 1 + j by omega]; exact h3 j
    by_cases hb : b = Memory.unlisted
    · simp only [Memory.cellsFrom, if_pos hb]
      refine ⟨h1, fun c hc => ?_, fun j => ?_⟩
      · have := h2 c hc
        simp only [List.length_cons]
        exact ⟨this.1, by omega, by omega⟩
      · cases j with
        | zero =>
          rw [Memory.lookup_of_lt fun c hc => by have := (h2 c hc).2.1; omega]
          simp [hb]
        | succ j => rw [h4 j]; simp
    · simp only [Memory.cellsFrom, if_neg hb]
      refine ⟨List.pairwise_cons.mpr ⟨fun c hc => ?_, h1⟩, fun c hc => ?_, fun j => ?_⟩
      · have := (h2 c hc).2.1; simp; omega
      · simp only [List.length_cons]
        rcases List.mem_cons.mp hc with rfl | hc
        · exact ⟨hb, by simp, by simp⟩
        · have := h2 c hc
          exact ⟨this.1, by omega, by omega⟩
      · cases j with
        | zero => simp [Memory.lookup]
        | succ j =>
          simp only [Memory.lookup]
          rw [if_neg (by omega), h4 j]
          simp

theorem Memory.ofBytes_wf (bs : List Byte) : (Memory.ofBytes bs).wf := by
  obtain ⟨h1, h2, -⟩ := Memory.cellsFrom_spec bs 0
  refine ⟨h1, fun c hc => ⟨(h2 c hc).1, ?_⟩⟩
  have := (h2 c hc).2.2
  simpa [Memory.ofBytes] using this

/-- The buffer of a list of bytes reads back as that list. -/
theorem Memory.memRead_ofBytes (bs : List Byte) (i : Nat) : (Memory.ofBytes bs).memRead i = bs[i]? := by
  obtain ⟨-, -, h3⟩ := Memory.cellsFrom_spec bs 0
  have := h3 i
  simp only [Nat.zero_add] at this
  by_cases hi : i < bs.length
  · simp only [Memory.memRead, Memory.byteAt, Memory.ofBytes, if_pos hi, this]
    simp [List.getD, hi]
  · simp [Memory.memRead, Memory.ofBytes, hi]

theorem length_bitsOfBytes (bs : List Byte) : (bitsOfBytes bs).length = 8 * bs.length := by
  induction bs with
  | nil => rfl
  | cons b bs ih => simp only [bitsOfBytes, List.length_cons, ih]; omega

/-- Bit `q` of a list of bytes is bit `7 - q mod 8` of byte `q div 8` (00_scope.md R10). -/
theorem getD_bitsOfBytes (bs : List Byte) (q : Nat) :
    (bitsOfBytes bs).getD q false = (bs.getD (q / 8) 0#8).getLsbD (7 - q % 8) := by
  induction bs generalizing q with
  | nil => simp [bitsOfBytes]
  | cons b bs ih =>
    by_cases hq : q < 8
    · interval_cases q <;> simp [bitsOfBytes]
    · obtain ⟨k, rfl⟩ : ∃ k, q = k + 8 := ⟨q - 8, by omega⟩
      have h1 : (bitsOfBytes (b :: bs)).getD (k + 8) false = (bitsOfBytes bs).getD k false := by
        simp [bitsOfBytes]
      have h2 : (k + 8) / 8 = k / 8 + 1 := by omega
      have h3 : (k + 8) % 8 = k % 8 := by omega
      rw [h1, ih k, h2, h3]
      simp

end Sys2Proof
end

