-- ==== Sys2Proof/Laws/Cursor.lean ====
section
/-! SUPPORT. The bit cursor's laws: positions and bit numbers, what `take` and the two-byte read
answer, and that an extraction depends on the bits it covers only. -/

namespace Sys2Proof

@[simp] theorem Pos.abs_ofAbs (q : Nat) : (Pos.ofAbs q).abs = q := by
  simp only [Pos.ofAbs, Pos.abs]; omega

@[simp] theorem Pos.ofAbs_abs (p : Pos) : Pos.ofAbs p.abs = p := by
  obtain ⟨i, o⟩ := p
  have := o.isLt
  simp only [Pos.ofAbs, Pos.abs, Pos.mk.injEq, Fin.ext_iff]
  omega

@[simp] theorem Pos.abs_advance (p : Pos) (n : Nat) : (p.advance n).abs = p.abs + n := by
  simp [Pos.advance]

@[simp] theorem Pos.advance_advance (p : Pos) (n k : Nat) :
    (p.advance n).advance k = p.advance (n + k) := by
  simp [Pos.advance, Nat.add_assoc]

theorem Pos.abs_injective {p q : Pos} (h : p.abs = q.abs) : p = q := by
  rw [← p.ofAbs_abs, h, q.ofAbs_abs]

/-- The first bit read is the most significant (20_memory.md R34). -/
theorem Memory.getMsbD_bitsAt (m : Memory) (q n k : Nat) :
    (m.bitsAt q n).getMsbD k = (decide (k < n) && m.bit (q + k)) := by
  induction n generalizing k with
  | zero => simp [Memory.bitsAt]
  | succ n ih =>
    rw [Memory.bitsAt, BitVec.getMsbD_concat, ih]
    by_cases h1 : k < n
    · simp [h1, Nat.lt_succ_of_lt h1]
    · by_cases h2 : k = n
      · subst h2; simp
      · have : ¬ k < n + 1 := by omega
        simp [h1, this]
        omega

/-- The bits covered determine the field. -/
theorem Memory.bitsAt_congr {m m' : Memory} {q q' n : Nat}
    (h : ∀ k, k < n → m.bit (q + k) = m'.bit (q' + k)) : m.bitsAt q n = m'.bitsAt q' n := by
  induction n with
  | zero => rfl
  | succ n ih =>
    rw [Memory.bitsAt, Memory.bitsAt, ih fun k hk => h k (by omega), h n (by omega)]

/-- Everything `take` can do (R34, R35). -/
theorem take_cases (m : Memory) (c : Pos) (n : Nat) :
    (c.abs + n ≤ m.bitLength ∧ take m c n = .ok (m.bitsAt c.abs n, c.advance n)) ∨
      (m.bitLength < c.abs + n ∧ take m c n = .error (.insufficientInput c n)) := by
  unfold take
  by_cases h : c.abs + n ≤ m.bitLength
  · exact .inl ⟨h, if_pos h⟩
  · exact .inr ⟨by omega, if_neg h⟩

theorem take_of_le {m : Memory} {c : Pos} {n : Nat} (h : c.abs + n ≤ m.bitLength) :
    take m c n = .ok (m.bitsAt c.abs n, c.advance n) := if_pos h

theorem take_of_lt {m : Memory} {c : Pos} {n : Nat} (h : m.bitLength < c.abs + n) :
    take m c n = .error (.insufficientInput c n) := if_neg (by omega)

/-- Everything the two-byte read can do (42_immediate.md R74). -/
theorem takeHalf_cases (m : Memory) (c : Pos) :
    (c.abs + 16 ≤ m.bitLength ∧
        takeHalf m c = .ok (m.bitsAt (c.abs + 8) 8 ++ m.bitsAt c.abs 8, c.advance 16)) ∨
      (m.bitLength < c.abs + 16 ∧ c.abs + 8 ≤ m.bitLength ∧
        takeHalf m c = .error (.insufficientInput (c.advance 8) 8)) ∨
      (m.bitLength < c.abs + 8 ∧ takeHalf m c = .error (.insufficientInput c 8)) := by
  unfold takeHalf
  obtain ⟨h1, e1⟩ | ⟨h1, e1⟩ := take_cases m c 8
  · obtain ⟨h2, e2⟩ | ⟨h2, e2⟩ := take_cases m (c.advance 8) 8
    · rw [Pos.abs_advance] at h2
      refine .inl ⟨by omega, ?_⟩
      simp [e1, e2, bind, Except.bind, pure, Except.pure]
    · rw [Pos.abs_advance] at h2
      refine .inr (.inl ⟨by omega, h1, ?_⟩)
      simp [e1, e2, bind, Except.bind]
  · refine .inr (.inr ⟨h1, ?_⟩)
    simp [e1, bind, Except.bind]

/-- `Except`'s bind, once for all proofs: where a sequence of extractions succeeds, its first one
did. -/
theorem bind_ok_inv {ε α β : Type} {x : Except ε α} {f : α → Except ε β} {b : β}
    (h : x >>= f = .ok b) : ∃ a, x = .ok a ∧ f a = .ok b := by
  cases x with
  | error e => simp [bind, Except.bind] at h
  | ok a => exact ⟨a, rfl, h⟩

/-- Where a sequence of extractions fails, its first one failed or succeeded before the failure. -/
theorem bind_error_inv {ε α β : Type} {x : Except ε α} {f : α → Except ε β} {e : ε}
    (h : x >>= f = .error e) : x = .error e ∨ ∃ a, x = .ok a ∧ f a = .error e := by
  cases x with
  | error e' => exact .inl (by simpa [bind, Except.bind] using h)
  | ok a => exact .inr ⟨a, rfl, h⟩

theorem bind_of_ok {ε α β : Type} {x : Except ε α} {f : α → Except ε β} {a : α} (h : x = .ok a) :
    x >>= f = f a := by
  rw [h]; rfl

theorem bind_of_error {ε α β : Type} {x : Except ε α} {f : α → Except ε β} {e : ε}
    (h : x = .error e) : x >>= f = .error e := by
  rw [h]; rfl

/-- What the nibble decides (30_encoding.md R53), with the row's own path. -/
theorem fetch_of_nibble {mode : DirectAddrMode} {m : Memory} {c : Pos}
    (h : c.abs + 4 ≤ m.bitLength) :
    fetch mode m c = fetchRow mode m (m.bitsAt c.abs 4) (c.advance 4) := by
  unfold fetch
  exact bind_of_ok (take_of_le h)

theorem fetch_of_short {mode : DirectAddrMode} {m : Memory} {c : Pos}
    (h : m.bitLength < c.abs + 4) :
    fetch mode m c = .error (.insufficientInput c 4) := by
  unfold fetch
  exact bind_of_error (take_of_lt h)

/-! ### What the buffer shows from a position on -/

/-- Fields side by side are determined one by one. -/
theorem append_inj_iff {n k : Nat} {a a' : BitVec n} {b b' : BitVec k} :
    a ++ b = a' ++ b' ↔ a = a' ∧ b = b' := by
  refine ⟨fun h => ⟨?_, ?_⟩, fun ⟨h1, h2⟩ => by rw [h1, h2]⟩
  · refine BitVec.eq_of_getLsbD_eq fun i hi => ?_
    have := congrArg (fun x => x.getLsbD (i + k)) h
    simpa [BitVec.getLsbD_append] using this
  · refine BitVec.eq_of_getLsbD_eq fun i hi => ?_
    have := congrArg (fun x => x.getLsbD i) h
    simpa [BitVec.getLsbD_append, hi] using this

theorem Memory.bitsAt_append (m : Memory) (q n k : Nat) :
    m.bitsAt q (n + k) = m.bitsAt q n ++ m.bitsAt (q + n) k := by
  refine BitVec.eq_of_getMsbD_eq fun i hi => ?_
  rw [Memory.getMsbD_bitsAt, BitVec.getMsbD_append, Memory.getMsbD_bitsAt, Memory.getMsbD_bitsAt]
  by_cases h : i < n
  · simp [h, hi]
  · have h3 : n ≤ i := by omega
    have h2 : q + n + (i - n) = q + i := by omega
    simp [hi, h2, h3]; omega

theorem Memory.holds_nil (m : Memory) (p : Pos) : m.holds p [] ↔ p.abs ≤ m.bitLength := by
  simp [Memory.holds]

theorem Memory.holds_append (m : Memory) (p : Pos) (a b : List Bool) :
    m.holds p (a ++ b) ↔ m.holds p a ∧ m.holds (p.advance a.length) b := by
  simp only [Memory.holds, Pos.abs_advance, List.length_append]
  constructor
  · rintro ⟨h1, h2⟩
    refine ⟨⟨by omega, fun k hk => ?_⟩, by omega, fun k hk => ?_⟩
    · rw [← h2 k (by omega), List.getElem?_append_left hk]
    · have := h2 (a.length + k) (by omega)
      rw [List.getElem?_append_right (by omega), Nat.add_sub_cancel_left, ← Nat.add_assoc] at this
      exact this
  · rintro ⟨⟨-, h2⟩, h3, h4⟩
    refine ⟨by omega, fun k hk => ?_⟩
    by_cases h : k < a.length
    · rw [List.getElem?_append_left h, h2 k h]
    · rw [List.getElem?_append_right (by omega), h4 (k - a.length) (by omega)]
      congr 2; omega

theorem getElem?_bitsOfBytes_singleton (b : Byte) {k : Nat} (hk : k < 8) :
    (bitsOfBytes [b])[k]? = some (b.getMsbD k) := by
  interval_cases k <;> simp [bitsOfBytes, BitVec.getMsbD]

/-- The buffer shows the first `n` bits of a byte. -/
theorem Memory.holds_take_byte (m : Memory) (p : Pos) (b : Byte) {n : Nat} (hn : n ≤ 8) :
    m.holds p ((bitsOfBytes [b]).take n) ↔
      p.abs + n ≤ m.bitLength ∧ ∀ k, k < n → m.bit (p.abs + k) = b.getMsbD k := by
  have hlen : ((bitsOfBytes [b]).take n).length = n := by
    rw [List.length_take, length_bitsOfBytes]; simp; omega
  unfold Memory.holds
  rw [hlen]
  refine and_congr Iff.rfl (forall₂_congr fun k hk => ?_)
  rw [List.getElem?_take_of_lt hk, getElem?_bitsOfBytes_singleton b (by omega)]
  exact ⟨fun h => (Option.some.inj h).symm, fun h => congrArg some h.symm⟩

/-- A field is known by its bits. -/
theorem Memory.bitsAt_eq_iff (m : Memory) (q n : Nat) (v : BitVec n) :
    m.bitsAt q n = v ↔ ∀ k, k < n → m.bit (q + k) = v.getMsbD k := by
  constructor
  · rintro rfl k hk
    rw [Memory.getMsbD_bitsAt]; simp [hk]
  · intro h
    refine BitVec.eq_of_getMsbD_eq fun k hk => ?_
    rw [Memory.getMsbD_bitsAt, ← h k hk]; simp [hk]

theorem Memory.holds_byte (m : Memory) (p : Pos) (b : Byte) :
    m.holds p (bitsOfBytes [b]) ↔ p.abs + 8 ≤ m.bitLength ∧ m.bitsAt p.abs 8 = b := by
  rw [Memory.bitsAt_eq_iff, ← Memory.holds_take_byte m p b (Nat.le_refl 8)]
  rfl

/-- The buffer shows a byte and then more bytes. -/
theorem Memory.holds_bytes_cons (m : Memory) (p : Pos) (b : Byte) (bs : List Byte) :
    m.holds p (bitsOfBytes (b :: bs)) ↔
      (p.abs + 8 ≤ m.bitLength ∧ m.bitsAt p.abs 8 = b) ∧ m.holds (p.advance 8) (bitsOfBytes bs) := by
  rw [← Memory.holds_byte, ← show (bitsOfBytes [b]).length = 8 from rfl, ← Memory.holds_append]
  rfl

theorem Memory.holds_nibble (m : Memory) (p : Pos) (n : Nibble) :
    m.holds p ((bitsOfBytes [nibbleByte n]).take 4) ↔
      p.abs + 4 ≤ m.bitLength ∧ m.bitsAt p.abs 4 = n := by
  rw [Memory.holds_take_byte m p _ (by decide), Memory.bitsAt_eq_iff]
  refine and_congr Iff.rfl (forall₂_congr fun k hk => ?_)
  have h : (nibbleByte n).getMsbD k = n.getMsbD k := by
    refine (BitVec.getMsbD_append (x := n) (y := 0b0000#4) (i := k)).trans ?_
    rw [if_neg (by omega)]
  rw [h]

end Sys2Proof
end

