-- ==== Sys2Proof/Laws/Decode.lean ====
section
/-! SUPPORT. What the decoder reads: each extraction and the addressing decoder succeed exactly when the
buffer shows the fields they answer. -/

namespace Sys2Proof

/-- An extraction succeeds exactly when its bits are there and are its value (20_memory.md R34). -/
theorem take_ok_iff {m : Memory} {c c' : Pos} {n : Nat} {v : BitVec n} :
    take m c n = .ok (v, c') ↔
      c.abs + n ≤ m.bitLength ∧ m.bitsAt c.abs n = v ∧ c' = c.advance n := by
  obtain ⟨h, e⟩ | ⟨h, e⟩ := take_cases m c n
  · rw [e]; simp [h, eq_comm]
  · rw [e]; simp; omega

/-- A 16-bit literal is its high byte in front of its low byte. -/
theorem half_eq_append_iff (v : Half) (lo hi : Byte) :
    hi ++ lo = v ↔ v.extractLsb' 0 8 = lo ∧ v.extractLsb' 8 8 = hi := by
  have hv : v.extractLsb' 8 8 ++ v.extractLsb' 0 8 = v := by
    refine BitVec.eq_of_getLsbD_eq fun i hi => ?_
    rw [BitVec.getLsbD_append]
    by_cases h : i < 8
    · simp [h]
    · simp [h, show 8 + (i - 8) = i by omega]; omega
  constructor
  · intro h
    have h' := append_inj_iff.mp (hv.trans h.symm)
    exact ⟨h'.2, h'.1⟩
  · rintro ⟨rfl, rfl⟩
    exact hv

/-- The two-byte read succeeds exactly when the buffer shows the literal's two bytes (R74). -/
theorem takeHalf_ok_iff {m : Memory} {c c' : Pos} {v : Half} :
    takeHalf m c = .ok (v, c') ↔
      m.holds c (bitsOfBytes (halfBytes v)) ∧ c' = c.advance 16 := by
  rw [halfBytes, Memory.holds_bytes_cons, Memory.holds_bytes_cons]
  simp only [bitsOfBytes, Memory.holds_nil, Pos.abs_advance, Pos.advance_advance]
  obtain ⟨h, e⟩ | ⟨h1, h2, e⟩ | ⟨h1, e⟩ := takeHalf_cases m c
  · rw [e]
    constructor
    · intro h'
      obtain ⟨h3, h4⟩ := Prod.mk.inj (Except.ok.inj h')
      obtain ⟨h5, h6⟩ := (half_eq_append_iff v _ _).mp h3
      exact ⟨⟨⟨by omega, h5.symm⟩, ⟨by omega, h6.symm⟩, by omega⟩, h4.symm⟩
    · rintro ⟨⟨⟨-, h5⟩, ⟨-, h6⟩, -⟩, rfl⟩
      rw [(half_eq_append_iff v _ _).mpr ⟨h5.symm, h6.symm⟩]
  · rw [e]; simp; omega
  · rw [e]; simp; omega

@[simp] theorem Pos.advance_zero (p : Pos) : p.advance 0 = p := by simp [Pos.advance]

theorem halfBytes_ne_nil (v : Half) : halfBytes v ≠ [] := by simp [halfBytes]

/-- Every 2-bit mode field. -/
theorem mode_cases (md : BitVec 2) : md = 0b00#2 ∨ md = 0b01#2 ∨ md = 0b10#2 ∨ md = 0b11#2 := by
  revert md; decide

/-- Mode 00 without a displacement, short of the direct-address case (R71). -/
theorem RmOperand.bare_wf_iff (mode : DirectAddrMode) (rm : Field3) :
    (RmOperand.bare rm).wf mode = true ↔ ¬(rm = 0b110#3 ∧ mode = .architectural) := by
  simp [RmOperand.wf]
  tauto

section FetchRm
variable (mode : DirectAddrMode) (m : Memory) (c : Pos) (rm : Field3)

theorem fetchRm_reg : fetchRm mode m c 0b11#2 rm = .ok (.reg rm, c) := rfl

theorem fetchRm_bare (h : ¬(rm = 0b110#3 ∧ mode = .architectural)) :
    fetchRm mode m c 0b00#2 rm = .ok (.bare rm, c) := if_neg h

theorem fetchRm_direct : fetchRm .architectural m c 0b00#2 0b110#3 =
    takeHalf m c >>= fun ac => .ok (.direct ac.1, ac.2) := rfl

theorem fetchRm_disp8 : fetchRm mode m c 0b01#2 rm =
    take m c 8 >>= fun dc => .ok (.disp8 rm dc.1, dc.2) := rfl

theorem fetchRm_disp16 : fetchRm mode m c 0b10#2 rm =
    takeHalf m c >>= fun dc => .ok (.disp16 rm dc.1, dc.2) := rfl
end FetchRm

/-- The addressing decoder reads an operand form exactly when the form is well formed, its fields are
`mod` and `rm`, and the buffer shows its displacement (R66 to R71). -/
theorem fetchRm_ok_iff {mode : DirectAddrMode} {m : Memory} {c c' : Pos} {md : BitVec 2}
    {rm : Field3} {o : RmOperand} (hc : c.abs ≤ m.bitLength) :
    fetchRm mode m c md rm = .ok (o, c') ↔
      o.wf mode = true ∧ o.modField = md ∧ o.rmField = rm ∧
        m.holds c (bitsOfBytes o.dispBytes) ∧ c' = c.advance (8 * o.dispBytes.length) := by
  have hnil : m.holds c (bitsOfBytes []) := (Memory.holds_nil m c).mpr hc
  constructor
  · intro h
    obtain rfl | rfl | rfl | rfl := mode_cases md
    · by_cases hd : rm = 0b110#3 ∧ mode = .architectural
      · obtain ⟨rfl, rfl⟩ := hd
        obtain ⟨⟨a, c1⟩, h1, h2⟩ := bind_ok_inv ((fetchRm_direct m c).symm.trans h)
        cases h2
        exact ⟨rfl, rfl, rfl, takeHalf_ok_iff.mp h1⟩
      · cases (fetchRm_bare mode m c rm hd).symm.trans h
        exact ⟨(RmOperand.bare_wf_iff mode rm).mpr hd, rfl, rfl, hnil, (Pos.advance_zero c).symm⟩
    · obtain ⟨⟨d, c1⟩, h1, h2⟩ := bind_ok_inv ((fetchRm_disp8 mode m c rm).symm.trans h)
      cases h2
      obtain ⟨h3, h4, h5⟩ := take_ok_iff.mp h1
      exact ⟨rfl, rfl, rfl, (Memory.holds_byte m c d).mpr ⟨h3, h4⟩, h5⟩
    · obtain ⟨⟨d, c1⟩, h1, h2⟩ := bind_ok_inv ((fetchRm_disp16 mode m c rm).symm.trans h)
      cases h2
      exact ⟨rfl, rfl, rfl, takeHalf_ok_iff.mp h1⟩
    · cases (fetchRm_reg mode m c rm).symm.trans h
      exact ⟨rfl, rfl, rfl, hnil, (Pos.advance_zero c).symm⟩
  · rintro ⟨hwf, rfl, rfl, hh, rfl⟩
    cases o with
    | reg rm => simp [RmOperand.modField, RmOperand.rmField, RmOperand.dispBytes, fetchRm_reg]
    | bare rm =>
      have hd := (RmOperand.bare_wf_iff mode rm).mp hwf
      simp [RmOperand.modField, RmOperand.rmField, RmOperand.dispBytes, fetchRm_bare _ _ _ _ hd]
    | disp8 rm d =>
      obtain ⟨h1, h2⟩ := (Memory.holds_byte m c d).mp hh
      exact (fetchRm_disp8 mode m c rm).trans (bind_of_ok (take_ok_iff.mpr ⟨h1, h2, rfl⟩))
    | disp16 rm d =>
      exact (fetchRm_disp16 mode m c rm).trans (bind_of_ok (takeHalf_ok_iff.mpr ⟨hh, rfl⟩))
    | direct a =>
      obtain rfl : mode = .architectural := by simpa [RmOperand.wf] using hwf
      exact (fetchRm_direct m c).trans (bind_of_ok (takeHalf_ok_iff.mpr ⟨hh, rfl⟩))

/-! ### The opcode map -/

section Rows
variable (mode : DirectAddrMode) (m : Memory) (c : Pos)

theorem fetchRow_regMem : fetchRow mode m 0b1000#4 c = fetchRegMem mode m c := rfl

theorem fetchRow_immReg : fetchRow mode m 0b1011#4 c = fetchImmReg m c := rfl

/-- A row of which only the nibble is read. -/
theorem fetchRow_nibbleOnly {i : Instr} (h : i.bits = 4) :
    fetchRow mode m i.nibble c = .ok (i, c) := by
  cases i with
  | movRegMem xx d w reg rm => simp only [Instr.bits] at h; omega
  | movImmReg reg imm => simp only [Instr.bits] at h; omega
  | _ => rfl
end Rows

/-- Every leading nibble is format A's, format B's, or that of a row of which only it is read. -/
theorem nibble_cases (nib : Nibble) :
    nib = 0b1000#4 ∨ nib = 0b1011#4 ∨ ∃ i : Instr, i.bits = 4 ∧ i.nibble = nib := by
  have h : ∀ n : Nibble, n = 0b1000#4 ∨ n = 0b1011#4 ∨
      n ∈ [Instr.movImmMem, .movAcc, .unrecognized0000, .unrecognized0001, .unrecognized0010,
        .unrecognized0011, .unrecognized0100, .unrecognized0101, .unrecognized0110,
        .unrecognized0111, .unrecognized1001, .unrecognized1101, .unrecognized1110,
        .unrecognized1111].map Instr.nibble := by decide
  refine (h nib).imp_right (Or.imp_right fun hm => ?_)
  obtain ⟨i, hi, rfl⟩ := List.mem_map.mp hm
  refine ⟨i, ?_, rfl⟩
  revert i
  decide

end Sys2Proof
end

