-- ==== Sys2Proof/Laws/PerInstr.lean ====
section
/-! SUPPORT. One family of facts, instruction by instruction: the shape of each encoding. -/

namespace Sys2Proof.Laws.EncodeShape

/-- At most four bytes (30_encoding.md R44), all of them read but for the unread half of a nibble row
(R48, R49, R64), the first one led by the row's nibble (R53). -/
def Statement (i : Instr) : Prop :=
  (encode i).length ≤ 4 ∧ 4 ≤ i.bits ∧ (i.bits = 8 * (encode i).length ∨ i.bits = 4) ∧
    ∃ b bs, encode i = b :: bs ∧ b.extractLsb' 4 4 = i.nibble

theorem dispBytes_length_le (rm : RmOperand) : rm.dispBytes.length ≤ 2 := by
  cases rm <;> simp [RmOperand.dispBytes, halfBytes]

theorem bytes_length (imm : Immediate) : 1 ≤ imm.bytes.length ∧ imm.bytes.length ≤ 2 := by
  cases imm <;> simp [Immediate.bytes, halfBytes]

theorem movRegMem (xx : BitVec 2) (d : Direction) (w : Width) (reg : Field3) (rm : RmOperand) :
    Statement (.movRegMem xx d w reg rm) := by
  have h := dispBytes_length_le rm
  refine ⟨by simp only [encode, List.length_cons]; omega, by simp only [Instr.bits]; omega,
    .inl (by simp only [Instr.bits, encode, List.length_cons]; omega), _, _, rfl, ?_⟩
  show BitVec.extractLsb' 4 4 (0b1000#4 ++ xx ++ d.bit ++ w.bit : BitVec 8) = 0b1000#4
  clear h
  revert xx
  cases d <;> cases w <;> decide

theorem movImmReg (reg : Field3) (imm : Immediate) : Statement (.movImmReg reg imm) := by
  have h := bytes_length imm
  refine ⟨by simp only [encode, List.length_cons]; omega, by simp only [Instr.bits]; omega,
    .inl (by simp only [Instr.bits, encode, List.length_cons]; omega), _, _, rfl, ?_⟩
  show BitVec.extractLsb' 4 4 (0b1011#4 ++ imm.width.bit ++ reg : BitVec 8) = 0b1011#4
  clear h
  generalize imm.width = w
  revert reg
  cases w <;> decide

theorem movImmMem : Statement .movImmMem :=
  ⟨by decide, by decide, .inr rfl, _, _, rfl, by decide⟩

theorem movAcc : Statement .movAcc :=
  ⟨by decide, by decide, .inr rfl, _, _, rfl, by decide⟩

theorem unrecognized0000 : Statement .unrecognized0000 :=
  ⟨by decide, by decide, .inr rfl, _, _, rfl, by decide⟩

theorem unrecognized0001 : Statement .unrecognized0001 :=
  ⟨by decide, by decide, .inr rfl, _, _, rfl, by decide⟩

theorem unrecognized0010 : Statement .unrecognized0010 :=
  ⟨by decide, by decide, .inr rfl, _, _, rfl, by decide⟩

theorem unrecognized0011 : Statement .unrecognized0011 :=
  ⟨by decide, by decide, .inr rfl, _, _, rfl, by decide⟩

theorem unrecognized0100 : Statement .unrecognized0100 :=
  ⟨by decide, by decide, .inr rfl, _, _, rfl, by decide⟩

theorem unrecognized0101 : Statement .unrecognized0101 :=
  ⟨by decide, by decide, .inr rfl, _, _, rfl, by decide⟩

theorem unrecognized0110 : Statement .unrecognized0110 :=
  ⟨by decide, by decide, .inr rfl, _, _, rfl, by decide⟩

theorem unrecognized0111 : Statement .unrecognized0111 :=
  ⟨by decide, by decide, .inr rfl, _, _, rfl, by decide⟩

theorem unrecognized1001 : Statement .unrecognized1001 :=
  ⟨by decide, by decide, .inr rfl, _, _, rfl, by decide⟩

theorem unrecognized1101 : Statement .unrecognized1101 :=
  ⟨by decide, by decide, .inr rfl, _, _, rfl, by decide⟩

theorem unrecognized1110 : Statement .unrecognized1110 :=
  ⟨by decide, by decide, .inr rfl, _, _, rfl, by decide⟩

theorem unrecognized1111 : Statement .unrecognized1111 :=
  ⟨by decide, by decide, .inr rfl, _, _, rfl, by decide⟩

end Sys2Proof.Laws.EncodeShape
end

