-- ==== Sys2Proof/Laws/State.lean ====
section
/-! SUPPORT. What each update of the state does to each field, true by `rfl`, and what the shared
operations answer. -/

namespace Sys2Proof.Machine

section Respond
variable (res : Result) (s : State)

@[simp] theorem respond_directAddrMode : (respond res s).directAddrMode = s.directAddrMode := rfl
@[simp] theorem respond_buf : (respond res s).buf = s.buf := rfl
@[simp] theorem respond_request : (respond res s).request = none := rfl
@[simp] theorem respond_cursor : (respond res s).cursor = none := rfl
@[simp] theorem respond_response : (respond res s).response = some res := rfl
end Respond

section Raise
variable (e : Error) (s : State)

@[simp] theorem raise_directAddrMode : (raise e s).directAddrMode = s.directAddrMode := rfl
@[simp] theorem raise_buf : (raise e s).buf = s.buf := rfl
@[simp] theorem raise_request : (raise e s).request = none := rfl
@[simp] theorem raise_cursor : (raise e s).cursor = none := rfl
@[simp] theorem raise_response : (raise e s).response = some (.err e) := rfl
end Raise

section Complete
variable (r : Request) (c : Pos) (kind : Op) (dst : Location) (src : Source) (s : State)

@[simp] theorem complete_directAddrMode :
    (complete r c kind dst src s).directAddrMode = s.directAddrMode := rfl
@[simp] theorem complete_buf : (complete r c kind dst src s).buf = s.buf := rfl
@[simp] theorem complete_request : (complete r c kind dst src s).request = none := rfl
@[simp] theorem complete_cursor : (complete r c kind dst src s).cursor = none := rfl
@[simp] theorem complete_response :
    (complete r c kind dst src s).response = some (.ok (stamp r c kind dst src) c) := rfl

@[simp] theorem stamp_address : (stamp r c kind dst src).address = r.addrIn := rfl
@[simp] theorem stamp_length : (stamp r c kind dst src).length = (c.abs - r.start.abs) / 8 := rfl
@[simp] theorem stamp_kind : (stamp r c kind dst src).kind = kind := rfl
@[simp] theorem stamp_dst : (stamp r c kind dst src).dst = dst := rfl
@[simp] theorem stamp_src : (stamp r c kind dst src).src = src := rfl
end Complete

section Reset
variable (s : State)

@[simp] theorem applyReset_directAddrMode : (applyReset s).directAddrMode = s.directAddrMode := rfl
@[simp] theorem applyReset_buf : (applyReset s).buf = s.buf := rfl
@[simp] theorem applyReset_request : (applyReset s).request = none := rfl
@[simp] theorem applyReset_cursor : (applyReset s).cursor = none := rfl
@[simp] theorem applyReset_response : (applyReset s).response = none := rfl
end Reset

section FetchWord
variable (s : State) (nbits w : Nat)

@[simp] theorem withFetchWord_directAddrMode :
    (s.withFetchWord nbits w).directAddrMode = s.directAddrMode := by
  simp only [State.withFetchWord]
@[simp] theorem withFetchWord_request :
    (s.withFetchWord nbits w).request = some s.requestOrFirst := by
  simp only [State.withFetchWord]
@[simp] theorem withFetchWord_cursor : (s.withFetchWord nbits w).cursor = s.cursor := by
  simp only [State.withFetchWord]
@[simp] theorem withFetchWord_response : (s.withFetchWord nbits w).response = s.response := by
  simp only [State.withFetchWord]
@[simp] theorem withFetchWord_buf : (s.withFetchWord nbits w).buf =
    s.buf.putBits s.requestOrFirst.start.abs (bitsOfBytes (tableBytes nbits w)) := by
  simp only [State.withFetchWord]
end FetchWord

/-- Only request, cursor and response matter to what `respond` forgets. -/
theorem respond_withCursor (res : Result) (s : State) (c : Option Pos) :
    respond res { s with cursor := c } = respond res s := rfl

/-- Inside a transaction a meaning sees its request and its cursor. -/
theorem inTransaction_eq {s : State} {r : Request} {c : Pos} (hr : s.request = some r)
    (hc : s.cursor = some c) (k : Request → Pos → Host.Outcome State Fault Refusal) :
    inTransaction s k = k r c := by
  simp [inTransaction, hr, hc]

/-- Everything `inTransaction` can do. -/
theorem inTransaction_cases (s : State) (k : Request → Pos → Host.Outcome State Fault Refusal) :
    (∃ r c, s.request = some r ∧ s.cursor = some c ∧ inTransaction s k = k r c) ∨
      ((s.request = none ∨ s.cursor = none) ∧ inTransaction s k = .refused .noTransaction) := by
  unfold inTransaction
  cases s.request <;> cases s.cursor <;> simp

theorem answerUnsupported_next {nib : Nibble} {s t : State}
    (h : answerUnsupported nib s = .next t) : ∃ res, t = respond res s := by
  obtain ⟨r, c, -, -, hk⟩ | ⟨-, hk⟩ := inTransaction_cases s
      (fun r c => .next (raise (.unsupportedOpcode nib r.start c) s))
  · rw [answerUnsupported, hk] at h
    exact ⟨_, (Host.Outcome.next.inj h).symm⟩
  · rw [answerUnsupported, hk] at h
    cases h

theorem answerUnimplemented_next {f : Family} {nib : Nibble} {s t : State}
    (h : answerUnimplemented f nib s = .next t) : ∃ res, t = respond res s := by
  obtain ⟨r, c, -, -, hk⟩ | ⟨-, hk⟩ := inTransaction_cases s
      (fun r c => .next (raise (.unimplementedVariant f nib r.start c) s))
  · rw [answerUnimplemented, hk] at h
    exact ⟨_, (Host.Outcome.next.inj h).symm⟩
  · rw [answerUnimplemented, hk] at h
    cases h

/-- The reset state's buffer has the canonical form. -/
theorem resetIn_buf_wf (m : DirectAddrMode) : (State.resetIn m).buf.wf := by
  simp [State.resetIn, Memory.wf]

/-- Everything the step can do: idle, end with the first failing extraction, or run the decoded
instruction. -/
theorem step_cases (s : State) :
    (s.request = none ∧ step s = .next s) ∨
      (∃ r e, s.request = some r ∧ fetch s.directAddrMode s.buf r.start = .error e ∧
        step s = .next (raise e s)) ∨
      (∃ r i c, s.request = some r ∧ fetch s.directAddrMode s.buf r.start = .ok (i, c) ∧
        step s = exec i { s with cursor := some c }) := by
  unfold step
  cases hr : s.request with
  | none => exact .inl ⟨rfl, rfl⟩
  | some r =>
    cases hf : fetch s.directAddrMode s.buf r.start with
    | error e => exact .inr (.inl ⟨r, e, rfl, hf, by simp [hf]⟩)
    | ok ic => exact .inr (.inr ⟨r, ic.1, ic.2, rfl, hf, by simp [hf]⟩)

end Sys2Proof.Machine
end

