-- ==== Sys2Proof/Tests/Slice0.lean ====
section
/-! SUPPORT. The model's own tests. Expected values come from spec/95_test_vectors.md, spec/30_encoding.md
and the examples of the rules, never from the model. A theorem named `witness_X` shows that the
hypotheses of `Obligations.X` can be met together. -/

open Sys2Proof Sys2Proof.Machine

namespace Sys2Proof.Tests

/-- A block with a waiting request. -/
def req (m : DirectAddrMode) (bs : List Byte) (start : Pos) (addr : Nat) : State :=
  { directAddrMode := m, buf := Memory.ofBytes bs, request := some ⟨start, addr⟩, cursor := none,
    response := none }

/-- An idle block. -/
def idle (m : DirectAddrMode) (bs : List Byte) : State :=
  { directAddrMode := m, buf := Memory.ofBytes bs, request := none, cursor := none,
    response := none }

/-- A block inside a transaction. -/
def inside (m : DirectAddrMode) (bs : List Byte) (start : Pos) (addr : Nat) (c : Pos) : State :=
  { req m bs start addr with cursor := some c }

/-- The state a step goes to. -/
def after (o : Host.Outcome State Fault Refusal) : Option State :=
  match o with
  | .next t => some t
  | .fault _ => none
  | .refused _ => none

/-- The response a step gives. -/
def answer (s : State) : Option Result := (after (step s)).bind (·.response)

/-- The start of every vector that names none. -/
def p0 : Pos := ⟨0, 0⟩

/-! ### WellFormed: each check refuses an ill-formed term -/

theorem test_wf_bare_bp_refused_under_architectural :
    (Instr.movRegMem 0b10#2 .toReg .word 0#3 (.bare 0b110#3)).wf .architectural = false := by decide

theorem test_wf_direct_refused_outside_architectural :
    (Instr.movRegMem 0b10#2 .toReg .word 0#3 (.direct 0x1234#16)).wf .reference = false ∧
      (Instr.movRegMem 0b10#2 .toReg .word 0#3 (.direct 0x1234#16)).wf .refuse = false := by decide

theorem test_wf_admits_the_forms_of_each_mode :
    (Instr.movRegMem 0b10#2 .toReg .word 0#3 (.direct 0x1234#16)).wf .architectural = true ∧
      (Instr.movRegMem 0b10#2 .toReg .word 0#3 (.bare 0b110#3)).wf .refuse = true ∧
      (Instr.movRegMem 0b10#2 .toReg .word 0#3 (.bare 0b111#3)).wf .architectural = true := by decide

/-! ### Decoding: words written out bit by bit from 30_encoding.md, first byte lowest -/

/-- S1: `10001001 11011000`: nibble 1000, ext 10, d 0, w 1, mod 11, reg 011, rm 000. -/
theorem test_decode_movRegMem_reg : decodeTableWord 16 0b11_011_000_1000_10_0_1 =
    some (.movRegMem 0b10#2 .toRm .word 0b011#3 (.reg 0b000#3)) := by decide

/-- `[0x80, 0x5E, 0xFF]`: ext 00, d 0, w 0, mod 01, reg 011, rm 110, disp8. -/
theorem test_decode_movRegMem_disp8 : decodeTableWord 24 0b11111111_01_011_110_1000_00_0_0 =
    some (.movRegMem 0b00#2 .toRm .byte 0b011#3 (.disp8 0b110#3 0xFF#8)) := by decide

/-- `[0x8E, 0x87, 0x34, 0x12]`: ext 11, d 1, w 0, mod 10, reg 000, rm 111, disp-lo, disp-hi. -/
theorem test_decode_movRegMem_disp16 :
    decodeTableWord 32 0b00010010_00110100_10_000_111_1000_11_1_0 =
      some (.movRegMem 0b11#2 .toReg .byte 0b000#3 (.disp16 0b111#3 0x1234#16)) := by decide

/-- mod 00, rm 110 under REFERENCE. -/
theorem test_decode_movRegMem_bare : decodeTableWord 16 0b00_101_110_1000_01_1_1 =
    some (.movRegMem 0b01#2 .toReg .word 0b101#3 (.bare 0b110#3)) := by decide

/-- mod 00, rm 110 under ARCHITECTURAL takes two more bytes (R71). -/
theorem test_fetch_movRegMem_direct :
    fetch .architectural (Memory.ofBytes [0x8B#8, 0x1E#8, 0x34#8, 0x12#8]) p0 =
      .ok (.movRegMem 0b10#2 .toReg .word 0b011#3 (.direct 0x1234#16), ⟨4, 0⟩) := by rfl

/-- `[0xBC, 0x00, 0x80]`: nibble 1011, w 1, reg 100, imm-lo 00, imm-hi 80. -/
theorem test_decode_movImmReg_word : decodeTableWord 24 0b10000000_00000000_1011_1_100 =
    some (.movImmReg 0b100#3 (.word 0x8000#16)) := by decide

/-- `[0xB4, 0xFF]`: nibble 1011, w 0, reg 100. -/
theorem test_decode_movImmReg_byte : decodeTableWord 16 0b11111111_1011_0_100 =
    some (.movImmReg 0b100#3 (.byte 0xFF#8)) := by decide

theorem test_decode_reserved : decodeTableWord 8 0b1100_0110 = some .movImmMem ∧
    decodeTableWord 8 0b1010_0001 = some .movAcc := by decide

theorem test_decode_unrecognized_low : decodeTableWord 8 0b0000_0000 = some .unrecognized0000 ∧
    decodeTableWord 8 0b0001_1111 = some .unrecognized0001 ∧
    decodeTableWord 8 0b0010_0110 = some .unrecognized0010 ∧
    decodeTableWord 8 0b0011_0110 = some .unrecognized0011 ∧
    decodeTableWord 8 0b0100_0000 = some .unrecognized0100 ∧
    decodeTableWord 8 0b0101_1010 = some .unrecognized0101 := by decide

theorem test_decode_unrecognized_high : decodeTableWord 8 0b0110_0000 = some .unrecognized0110 ∧
    decodeTableWord 8 0b0111_1000 = some .unrecognized0111 ∧
    decodeTableWord 8 0b1001_0000 = some .unrecognized1001 ∧
    decodeTableWord 8 0b1101_0001 = some .unrecognized1101 ∧
    decodeTableWord 8 0b1110_1001 = some .unrecognized1110 ∧
    decodeTableWord 8 0b1111_0100 = some .unrecognized1111 := by decide

/-- The bits above `nbits` are zero: an 8-bit table word of 1011 has a zero immediate. -/
theorem test_decode_short_table_word : decodeTableWord 8 0xFFB8 =
    some (.movImmReg 0b000#3 (.word 0#16)) := by decide

theorem test_encode_moves :
    encode (.movRegMem 0b10#2 .toReg .word 0b000#3 (.disp8 0b000#3 0x05#8)) =
        [0x8B#8, 0x40#8, 0x05#8] ∧
      encode (.movImmReg 0b000#3 (.word 0x0005#16)) = [0xB8#8, 0x05#8, 0x00#8] := by decide

/-! ### The bit cursor -/

/-- R34's example: 4 bits at offset 6 are bits 1 and 0 of one byte and bits 7 and 6 of the next. -/
theorem test_take_straddles_a_byte_boundary :
    take (Memory.ofBytes [0b00000001#8, 0b10000000#8]) ⟨0, 6⟩ 4 = .ok (0b0110#4, ⟨1, 2⟩) := by rfl

/-- R74: bytes 34, 12 give 0x1234. -/
theorem test_imm16_is_little_endian :
    imm16 (Memory.ofBytes [0x34#8, 0x12#8]) p0 = .ok (.word 0x1234#16, ⟨2, 0⟩) := by rfl

/-! ### One step per instruction -/

/-- S1. -/
theorem test_movRegMem_reg_to_rm : answer (req .reference [0x89#8, 0xD8#8] p0 0) =
    some (.ok ⟨0, 2, .movRegMemToRegMem, .reg ⟨0, .word⟩, .loc (.reg ⟨3, .word⟩)⟩ ⟨2, 0⟩) := by
  decide

/-- 2.2: `[0x88, 0x41, 0x00]`: a zero displacement stays a displacement (R72). -/
theorem test_movRegMem_zero_displacement :
    answer (req .reference [0x88#8, 0x41#8, 0x00#8] p0 0) =
      some (.ok ⟨0, 3, .movRegMemToRegMem, .mem (.withOffset .bxDi (.byte 0#8)),
        .loc (.reg ⟨0, .byte⟩)⟩ ⟨3, 0⟩) := by
  decide

/-- 2.5: a start that is not byte-aligned. -/
theorem test_movImmReg_unaligned :
    answer (req .reference [0xFB#8, 0x80#8, 0x50#8, 0x08#8, 0x9D#8, 0x80#8] ⟨0, 4⟩ 0x100) =
      some (.ok ⟨0x100, 3, .movImmToReg, .reg ⟨0, .word⟩, .imm (.word 5#16)⟩ ⟨3, 4⟩) := by
  decide

/-- 2.3: `[0xB4, 0xFF]`. -/
theorem test_movImmReg_byte : answer (req .reference [0xB4#8, 0xFF#8] p0 0) =
    some (.ok ⟨0, 2, .movImmToReg, .reg ⟨4, .byte⟩, .imm (.byte 0xFF#8)⟩ ⟨2, 0⟩) := by
  decide

/-- 2.1: `[0xC6]` is not InsufficientInput. -/
theorem test_movImmMem : answer (req .reference [0xC6#8] p0 0) =
    some (.err (.unimplementedVariant .immToMem 0xC#4 ⟨0, 0⟩ ⟨0, 4⟩)) := by decide

/-- 2.1: `[0xA1, 0x34, 0x12]`. -/
theorem test_movAcc : answer (req .reference [0xA1#8, 0x34#8, 0x12#8] p0 0) =
    some (.err (.unimplementedVariant .accMove 0xA#4 ⟨0, 0⟩ ⟨0, 4⟩)) := by decide

/-- S5. -/
theorem test_unrecognized0000 : answer (req .reference [0x00#8] p0 0) =
    some (.err (.unsupportedOpcode 0x0#4 ⟨0, 0⟩ ⟨0, 4⟩)) := by decide

/-- R64. -/
theorem test_unrecognized0001 : answer (req .refuse [0x1F#8] p0 0) =
    some (.err (.unsupportedOpcode 0x1#4 ⟨0, 0⟩ ⟨0, 4⟩)) := by decide

/-- 2.1: a segment-override prefix is not recognised. -/
theorem test_unrecognized0010 : answer (req .reference [0x26#8, 0x8B#8, 0x07#8] p0 0) =
    some (.err (.unsupportedOpcode 0x2#4 ⟨0, 0⟩ ⟨0, 4⟩)) := by decide

/-- P3, second response under REFERENCE. -/
theorem test_unrecognized0011 :
    answer (req .reference [0x8B#8, 0x1E#8, 0x34#8, 0x12#8, 0xB0#8, 0x01#8] ⟨2, 0⟩ 2) =
      some (.err (.unsupportedOpcode 0x3#4 ⟨2, 0⟩ ⟨2, 4⟩)) := by decide

/-- R64. -/
theorem test_unrecognized0100 : answer (req .reference [0x40#8] p0 0) =
    some (.err (.unsupportedOpcode 0x4#4 ⟨0, 0⟩ ⟨0, 4⟩)) := by decide

/-- R64. -/
theorem test_unrecognized0101 : answer (req .reference [0x5A#8] p0 0) =
    some (.err (.unsupportedOpcode 0x5#4 ⟨0, 0⟩ ⟨0, 4⟩)) := by decide

/-- R64. -/
theorem test_unrecognized0110 : answer (req .reference [0x60#8] p0 0) =
    some (.err (.unsupportedOpcode 0x6#4 ⟨0, 0⟩ ⟨0, 4⟩)) := by decide

/-- R64, at a start inside a byte. -/
theorem test_unrecognized0111 : answer (req .reference [0x07#8] ⟨0, 4⟩ 0) =
    some (.err (.unsupportedOpcode 0x7#4 ⟨0, 4⟩ ⟨1, 0⟩)) := by decide

/-- 2.1. -/
theorem test_unrecognized1001 : answer (req .reference [0x90#8] p0 0) =
    some (.err (.unsupportedOpcode 0x9#4 ⟨0, 0⟩ ⟨0, 4⟩)) := by decide

/-- R64. -/
theorem test_unrecognized1101 : answer (req .reference [0xD1#8] p0 0) =
    some (.err (.unsupportedOpcode 0xD#4 ⟨0, 0⟩ ⟨0, 4⟩)) := by decide

/-- R64. -/
theorem test_unrecognized1110 : answer (req .architectural [0xE9#8] p0 0) =
    some (.err (.unsupportedOpcode 0xE#4 ⟨0, 0⟩ ⟨0, 4⟩)) := by decide

/-- S4 as corrected (90_conflicts.md C1). -/
theorem test_unrecognized1111 : answer (req .reference [0xFF#8] p0 0) =
    some (.err (.unsupportedOpcode 0xF#4 ⟨0, 0⟩ ⟨0, 4⟩)) := by decide

/-! ### Errors of the fetch, and from reset -/

/-- R89: `[0x89]`, and the empty buffer. -/
theorem test_insufficient_input :
    answer (req .reference [0x89#8] p0 0) = some (.err (.insufficientInput ⟨1, 0⟩ 2)) ∧
      answer (req .reference [] p0 0) = some (.err (.insufficientInput ⟨0, 0⟩ 4)) := by decide

/-- 2.4: the three values of DIRECT_ADDR_MODE. -/
theorem test_direct_address_case :
    answer (req .architectural [0x8B#8, 0x1E#8, 0x34#8, 0x12#8] p0 0) =
        some (.ok ⟨0, 4, .movRegMemToRegMem, .reg ⟨3, .word⟩,
          .loc (.mem (.direct (.word 0x1234#16)))⟩ ⟨4, 0⟩) ∧
      answer (req .refuse [0x8B#8, 0x1E#8, 0x34#8, 0x12#8] p0 0) =
        some (.err (.unimplementedVariant .regMemMove 0x8#4 ⟨0, 0⟩ ⟨2, 0⟩)) ∧
      answer (req .architectural [0x8B#8, 0x06#8] p0 0) =
        some (.err (.insufficientInput ⟨2, 0⟩ 8)) := by decide

/-- S3, loaded after reset as the host loads it. -/
theorem test_first_instruction_after_reset :
    answer (State.reset.withFetchWord 24 0x05408B) =
      some (.ok ⟨0, 3, .movRegMemToRegMem, .reg ⟨0, .word⟩,
        .loc (.mem (.withOffset .bxSi (.byte 5#8)))⟩ ⟨3, 0⟩) := by decide

theorem test_reset_is_idle : after (step State.reset) = some State.reset := by decide

/-- P4: a move, then a reserved family. -/
theorem test_stream_of_two :
    stream stopPolicy 2 ⟨p0, 0⟩ (idle .reference [0xBB#8, 0x34#8, 0x12#8, 0xC7#8, 0x06#8]) =
      [(⟨⟨0, 0⟩, 0⟩, .ok ⟨0, 3, .movImmToReg, .reg ⟨3, .word⟩, .imm (.word 0x1234#16)⟩ ⟨3, 0⟩),
        (⟨⟨3, 0⟩, 3⟩, .err (.unimplementedVariant .immToMem 0xC#4 ⟨3, 0⟩ ⟨3, 4⟩))] := by decide

/-- P2, its second and third steps: the caller skips one byte after the unsupported opcode. -/
theorem test_stream_with_skip :
    stream skipBytePolicy 2 ⟨⟨2, 0⟩, 2⟩ (idle .reference [0xB1#8, 0x0A#8, 0x90#8, 0x88#8, 0xC8#8]) =
      [(⟨⟨2, 0⟩, 2⟩, .err (.unsupportedOpcode 0x9#4 ⟨2, 0⟩ ⟨2, 4⟩)),
        (⟨⟨3, 0⟩, 3⟩, .ok ⟨3, 2, .movRegMemToRegMem, .reg ⟨0, .byte⟩, .loc (.reg ⟨1, .byte⟩)⟩
          ⟨5, 0⟩)] := by decide

/-! ### Witnesses: the hypotheses of each statement, met together -/

/-- S3's bytes as a request. -/
def s3 : State := req .reference [0x8B#8, 0x40#8, 0x05#8] p0 0

/-- What S3 answers. -/
def s3Record : Record :=
  ⟨0, 3, .movRegMemToRegMem, .reg ⟨0, .word⟩, .loc (.mem (.withOffset .bxSi (.byte 5#8)))⟩

/-- The state S3 goes to. -/
def s3After : State :=
  { idle .reference [0x8B#8, 0x40#8, 0x05#8] with response := some (.ok s3Record ⟨3, 0⟩) }

theorem step_s3 : step s3 = .next s3After := by rfl

/-- `[0x90]` as a request, and the state it goes to. -/
def nop : State := req .reference [0x90#8] p0 0

def nopAfter : State :=
  { idle .reference [0x90#8] with
    response := some (.err (.unsupportedOpcode 0x9#4 ⟨0, 0⟩ ⟨0, 4⟩)) }

theorem step_nop : step nop = .next nopAfter := by rfl

theorem holds_of_decide {m : Memory} {p : Pos} {bs : List Bool}
    (h : p.abs + bs.length ≤ m.bitLength ∧ ∀ k, k < bs.length → bs[k]? = some (m.bit (p.abs + k))) :
    m.holds p bs := h

/-- Past its last byte a buffer of listed bytes shows zeros. -/
theorem bit_ofBytes_of_le (bs : List Byte) (q : Nat) (h : 8 * bs.length ≤ q) :
    (Memory.ofBytes bs).bit q = false := by
  obtain ⟨-, -, h3⟩ := Memory.cellsFrom_spec bs 0
  have h4 := h3 (q / 8)
  rw [List.getD_eq_getElem?_getD, List.getElem?_eq_none (by omega)] at h4
  simp only [Nat.zero_add] at h4
  simp [Memory.bit, Memory.byteAt, Memory.ofBytes, h4, Memory.unlisted]

theorem witness_ResetLeavesTheBlockIdle : State.reset.request = none := by decide

theorem witness_EveryRequestGetsOneResponse : s3.request = some ⟨p0, 0⟩ := by decide

theorem witness_StepAnswersTheSpecsDecode : s3.request = some ⟨p0, 0⟩ := by decide

/-- The two blocks differ in what they hold besides. -/
theorem witness_ResponseDependsOnTheRequestAlone :
    let s' : State := { s3 with response := some (.err (.insufficientInput p0 4)) }
    s3 ≠ s' ∧ s3.directAddrMode = s'.directAddrMode ∧ s3.buf = s'.buf ∧
      s3.request = some ⟨p0, 0⟩ ∧ s'.request = some ⟨p0, 0⟩ := by decide

theorem witness_RepeatedRequestGetsTheSameResult : nop.request = some ⟨p0, 0⟩ := by decide

theorem witness_ReadyAfterAnError : nop.request = some ⟨p0, 0⟩ ∧ step nop = .next nopAfter ∧
    nopAfter.response = some (.err (.unsupportedOpcode 0x9#4 ⟨0, 0⟩ ⟨0, 4⟩)) :=
  ⟨rfl, step_nop, rfl⟩

theorem witness_StepNeverWritesBufferOrConfiguration : step s3 = .next s3After := step_s3

theorem witness_MeaningsChangeOnlyThePorts :
    exec (.movImmReg 0#3 (.byte 1#8)) (inside .reference [0xB0#8, 0x01#8] p0 0 ⟨2, 0⟩) =
      .next { idle .reference [0xB0#8, 0x01#8] with
        response := some (.ok ⟨0, 2, .movImmToReg, .reg ⟨0, .byte⟩, .imm (.byte 1#8)⟩ ⟨2, 0⟩) } := by
  rfl

theorem witness_MeaningsStopOutsideTheirDomain :
    (State.reset.request = none ∨ State.reset.cursor = none) ∧
      (inside .reference [] p0 0 p0).request = some ⟨p0, 0⟩ ∧
      (inside .reference [] p0 0 p0).cursor = some p0 ∧
      (Instr.movRegMem 0#2 .toReg .byte 0#3 (.direct 0#16)).wf
        (inside .reference [] p0 0 p0).directAddrMode = false := by decide

/-- Both clauses at their boundary: the last bits that fit, and one bit more. -/
theorem witness_TakeReadsMostSignificantFirst :
    1 ≤ 4 ∧ 4 ≤ Config.takeMax ∧ 12 = 8 * 1 + 4 ∧ 12 + 4 ≤ 8 * (Memory.ofBytes [1#8, 2#8]).length ∧
      8 * (Memory.ofBytes [1#8, 2#8]).length < 12 + 5 := by decide

/-- Widths 1 and 16. -/
theorem witness_TakeFailsExactlyWhenShort :
    take (Memory.ofBytes [1#8]) ⟨1, 0⟩ 1 = .error (.insufficientInput ⟨1, 0⟩ 1) ∧
      take (Memory.ofBytes [1#8]) p0 16 = .error (.insufficientInput p0 16) := by
  exact ⟨rfl, rfl⟩

/-- Both clauses; the index is the first one past the buffer's end, so the buffer grows. -/
theorem witness_CallerWritesBetweenTransactions :
    (idle .reference [1#8]).buf.wf ∧ (idle .reference [1#8]).request = none ∧
      (idle .reference [1#8]).cursor = none ∧ 0 ≠ 1 ∧ 0 < (idle .reference [1#8]).buf.length ∧
      s3.buf.wf ∧ s3.request ≠ none := by decide

theorem witness_OneRequestInFlight : s3.request ≠ none ∧ State.reset.request = none ∧
    State.reset.cursor = none := by decide

/-- The two buffers differ after bit 31. -/
theorem witness_TransactionReadsAtMost32Bits :
    let s := req .reference [0x89#8, 0x87#8, 0x34#8, 0x12#8, 0x00#8] p0 0
    let s' := req .reference [0x89#8, 0x87#8, 0x34#8, 0x12#8, 0xFF#8] p0 0
    s.directAddrMode = s'.directAddrMode ∧ s.request = some ⟨p0, 0⟩ ∧ s'.request = some ⟨p0, 0⟩ ∧
      s.buf.length = s'.buf.length ∧ s.buf.bit 32 ≠ s'.buf.bit 32 ∧
      ∀ k, k < 32 → s.buf.bit (p0.abs + k) = s'.buf.bit (p0.abs + k) := by decide

/-- The same three bytes at bit offset 0 and, in vector 2.5, at bit offset 4. -/
theorem witness_DecodingIsTheSameAtEveryBitOffset :
    let s := req .reference [0xB8#8, 0x05#8, 0x00#8] p0 0
    let s' := req .reference [0xFB#8, 0x80#8, 0x50#8, 0x08#8] ⟨0, 4⟩ 0x100
    let rc : Record := ⟨0, 3, .movImmToReg, .reg ⟨0, .word⟩, .imm (.word 5#16)⟩
    let t : State := { idle .reference [0xB8#8, 0x05#8, 0x00#8] with
      response := some (.ok rc ⟨3, 0⟩) }
    s.directAddrMode = s'.directAddrMode ∧ s.request = some ⟨p0, 0⟩ ∧
      s'.request = some ⟨⟨0, 4⟩, 0x100⟩ ∧ step s = .next t ∧
      t.response = some (.ok rc ⟨3, 0⟩) ∧
      (⟨0, 4⟩ : Pos).abs + 8 * rc.length ≤ 8 * s'.buf.length ∧
      ∀ k, k < 8 * rc.length → s.buf.bit (p0.abs + k) = s'.buf.bit ((⟨0, 4⟩ : Pos).abs + k) :=
  ⟨rfl, rfl, rfl, rfl, rfl, by decide, by decide⟩

/-- The three clauses: two bytes left, one byte left, less than one byte left. -/
theorem witness_SixteenBitLiteralIsLittleEndian :
    p0.abs + 16 ≤ 8 * (Memory.ofBytes [0x34#8, 0x12#8]).length ∧
      (⟨1, 0⟩ : Pos).abs + 8 ≤ 8 * (Memory.ofBytes [0x34#8, 0x12#8]).length ∧
      8 * (Memory.ofBytes [0x34#8, 0x12#8]).length < (⟨1, 0⟩ : Pos).abs + 16 ∧
      8 * (Memory.ofBytes [0x34#8, 0x12#8]).length < (⟨1, 1⟩ : Pos).abs + 8 := by decide

theorem witness_EightBitLiteralAndItsSelection :
    take (Memory.ofBytes [0xFF#8]) p0 8 = .ok (0xFF#8, ⟨1, 0⟩) ∧
      8 * (Memory.ofBytes [0xFF#8]).length < (⟨0, 1⟩ : Pos).abs + 8 :=
  ⟨rfl, by decide⟩

/-- 2.1: `[0x08]` at (0,5), three bits remain. -/
theorem witness_ShortStartGivesInsufficientInput :
    (req .reference [0x08#8] ⟨0, 5⟩ 0).request = some ⟨⟨0, 5⟩, 0⟩ ∧
      8 * (req .reference [0x08#8] ⟨0, 5⟩ 0).buf.length < (⟨0, 5⟩ : Pos).abs + 4 := by decide

theorem witness_UnrecognizedNibbleGivesUnsupportedOpcode :
    nop.request = some ⟨p0, 0⟩ ∧ take nop.buf p0 4 = .ok (0x9#4, ⟨0, 4⟩) ∧
      (0x9#4 : Nibble) ≠ 0b1000#4 ∧ (0x9#4 : Nibble) ≠ 0b1011#4 ∧ (0x9#4 : Nibble) ≠ 0b1100#4 ∧
      (0x9#4 : Nibble) ≠ 0b1010#4 :=
  ⟨rfl, rfl, by decide⟩

theorem witness_ReservedFamiliesGiveUnimplementedVariant :
    take (req .reference [0xC6#8] p0 0).buf p0 4 = .ok (0b1100#4, ⟨0, 4⟩) ∧
      take (req .reference [0xA1#8] p0 0).buf p0 4 = .ok (0b1010#4, ⟨0, 4⟩) := by
  exact ⟨rfl, rfl⟩

theorem witness_NibbleRowsCompleteWithTheirError :
    (inside .reference [0xC6#8] p0 0 ⟨0, 4⟩).request = some ⟨p0, 0⟩ ∧
      (inside .reference [0xC6#8] p0 0 ⟨0, 4⟩).cursor = some ⟨0, 4⟩ := by decide

theorem witness_EncodedWordDecodesToItsInstruction :
    (Instr.movRegMem 0b10#2 .toReg .word 0#3 (.bare 0b110#3)).wf Config.directAddrModeAtReset =
      true := by decide

/-- S3, and one reserved family of which the buffer shows the nibble alone. -/
theorem witness_StepRunsTheDecodedInstruction :
    s3.request = some ⟨p0, 0⟩ ∧
      (Instr.movRegMem 0b10#2 .toReg .word 0#3 (.disp8 0#3 5#8)).wf s3.directAddrMode = true ∧
      s3.buf.holds p0
        (encodeBits (.movRegMem 0b10#2 .toReg .word 0#3 (.disp8 0#3 5#8))) ∧
      (req .reference [0x0C#8] ⟨0, 4⟩ 0).buf.holds ⟨0, 4⟩ (encodeBits .movImmMem) :=
  ⟨rfl, rfl, holds_of_decide (by decide), holds_of_decide (by decide)⟩

theorem witness_LoadedWordIsTheNextInstruction :
    State.reset.buf.wf ∧ State.reset.directAddrMode = Config.directAddrModeAtReset ∧
      decodeTableWord 24 0x05408B =
        some (.movRegMem 0b10#2 .toReg .word 0#3 (.disp8 0#3 5#8)) := by decide

/-- The five operand forms, each under a configuration that decodes it. -/
theorem witness_RegMemMoveCompletes :
    (inside .architectural [] p0 0 ⟨4, 0⟩).request = some ⟨p0, 0⟩ ∧
      (inside .architectural [] p0 0 ⟨4, 0⟩).cursor = some ⟨4, 0⟩ ∧
      (∃ x, RmOperand.reg 7#3 = .reg x ∧ Location.reg ⟨7#3, .word⟩ = .reg ⟨x, .word⟩) ∧
      (∃ x, RmOperand.bare 6#3 = .bare x ∧
        (x ≠ 0b110#3 ∨ (inside .reference [] p0 0 p0).directAddrMode = .reference) ∧
        Location.mem (.bare .bp) = .mem (.bare (Address.ofRm x))) ∧
      (∃ x v, RmOperand.disp8 6#3 0xFF#8 = .disp8 x v ∧
        Location.mem (.withOffset .bp (.byte 0xFF#8)) =
          .mem (.withOffset (Address.ofRm x) (.byte v))) ∧
      (∃ x v, RmOperand.disp16 0#3 0xFFFF#16 = .disp16 x v ∧
        Location.mem (.withOffset .bxSi (.word 0xFFFF#16)) =
          .mem (.withOffset (Address.ofRm x) (.word v))) ∧
      (∃ v, RmOperand.direct 0x1234#16 = .direct v ∧
        (inside .architectural [] p0 0 ⟨4, 0⟩).directAddrMode = .architectural ∧
        Location.mem (.direct (.word 0x1234#16)) = .mem (.direct (.word v))) :=
  ⟨rfl, rfl, ⟨_, rfl, rfl⟩, ⟨_, rfl, .inr rfl, rfl⟩, ⟨_, _, rfl, rfl⟩, ⟨_, _, rfl, rfl⟩,
    ⟨_, rfl, rfl, rfl⟩⟩

/-- S1. -/
theorem witness_RegisterDirectMoveFromBits :
    (req .reference [0x89#8, 0xD8#8] p0 0).request = some ⟨p0, 0⟩ ∧
      (req .reference [0x89#8, 0xD8#8] p0 0).buf.holds p0 (bitsOfBytes
        [(0b1000#4 ++ 0b10#2 ++ Direction.toRm.bit ++ Width.word.bit : BitVec 8),
          (0b11#2 ++ 0b011#3 ++ 0b000#3 : BitVec 8)]) :=
  ⟨rfl, holds_of_decide (by decide)⟩

/-- 2.2: `[0x8A, 0x07]`, and rm 110 under REFERENCE. -/
theorem witness_NoDisplacementMoveFromBits :
    (req .refuse [0x8A#8, 0x07#8] p0 0).request = some ⟨p0, 0⟩ ∧ (0b111#3 : Field3) ≠ 0b110#3 ∧
      (req .refuse [0x8A#8, 0x07#8] p0 0).buf.holds p0 (bitsOfBytes
        [(0b1000#4 ++ 0b10#2 ++ Direction.toReg.bit ++ Width.byte.bit : BitVec 8),
          (0b00#2 ++ 0b000#3 ++ 0b111#3 : BitVec 8)]) ∧
      (req .reference [0x8B#8, 0x06#8] p0 0).directAddrMode = .reference ∧
      (req .reference [0x8B#8, 0x06#8] p0 0).buf.holds p0 (bitsOfBytes
        [(0b1000#4 ++ 0b10#2 ++ Direction.toReg.bit ++ Width.word.bit : BitVec 8),
          (0b00#2 ++ 0b000#3 ++ 0b110#3 : BitVec 8)]) :=
  ⟨rfl, by decide, holds_of_decide (by decide), rfl, holds_of_decide (by decide)⟩

/-- 2.2: `[0x8B, 0x46, 0xFE]`, and without its last byte. -/
theorem witness_ByteDisplacementMoveFromBits :
    let two : List Byte := [(0b1000#4 ++ 0b10#2 ++ Direction.toReg.bit ++ Width.word.bit : BitVec 8),
      (0b01#2 ++ 0b000#3 ++ 0b110#3 : BitVec 8)]
    let s := req .reference [0x8B#8, 0x46#8, 0xFE#8] p0 0
    let s' := req .reference [0x8B#8, 0x46#8] p0 0
    s.request = some ⟨p0, 0⟩ ∧ s.buf.holds p0 (bitsOfBytes two) ∧
      take s.buf (p0.advance 16) 8 = .ok (0xFE#8, ⟨3, 0⟩) ∧
      s'.request = some ⟨p0, 0⟩ ∧ s'.buf.holds p0 (bitsOfBytes two) ∧
      8 * s'.buf.length < p0.abs + 24 :=
  ⟨rfl, holds_of_decide (by decide), rfl, rfl, holds_of_decide (by decide), by decide⟩

/-- 2.2: `[0x89, 0x87, 0x34, 0x12]`, without its last byte, and without its last two. -/
theorem witness_WordDisplacementMoveFromBits :
    let two : List Byte := [(0b1000#4 ++ 0b10#2 ++ Direction.toRm.bit ++ Width.word.bit : BitVec 8),
      (0b10#2 ++ 0b000#3 ++ 0b111#3 : BitVec 8)]
    let s := req .reference [0x89#8, 0x87#8, 0x34#8, 0x12#8] p0 0
    let s' := req .reference [0x89#8, 0x87#8, 0x34#8] p0 0
    let s'' := req .reference [0x89#8, 0x87#8] p0 0
    s.request = some ⟨p0, 0⟩ ∧ s.buf.holds p0 (bitsOfBytes two) ∧
      take s.buf (p0.advance 16) 8 = .ok (0x34#8, p0.advance 24) ∧
      take s.buf (p0.advance 24) 8 = .ok (0x12#8, ⟨4, 0⟩) ∧
      s'.request = some ⟨p0, 0⟩ ∧ s'.buf.holds p0 (bitsOfBytes two) ∧
      p0.abs + 24 ≤ 8 * s'.buf.length ∧ 8 * s'.buf.length < p0.abs + 32 ∧
      s''.request = some ⟨p0, 0⟩ ∧ s''.buf.holds p0 (bitsOfBytes two) ∧
      8 * s''.buf.length < p0.abs + 24 :=
  ⟨rfl, holds_of_decide (by decide), rfl, rfl, rfl, holds_of_decide (by decide), by decide,
    by decide, rfl, holds_of_decide (by decide), by decide⟩

/-- 2.4, each clause. -/
theorem witness_DirectAddressCaseUnderEachMode :
    let two : List Byte := [(0b1000#4 ++ 0b10#2 ++ Direction.toReg.bit ++ Width.word.bit : BitVec 8),
      (0b00#2 ++ 0b011#3 ++ 0b110#3 : BitVec 8)]
    let s := fun m => req m [0x8B#8, 0x1E#8, 0x34#8, 0x12#8] p0 0
    let s' := req .architectural [0x8B#8, 0x1E#8, 0x34#8] p0 0
    let s'' := req .architectural [0x8B#8, 0x1E#8] p0 0
    (∀ m, (s m).request = some ⟨p0, 0⟩ ∧ (s m).buf.holds p0 (bitsOfBytes two) ∧
      (s m).directAddrMode = m ∧ take (s m).buf (p0.advance 16) 8 = .ok (0x34#8, p0.advance 24) ∧
      take (s m).buf (p0.advance 24) 8 = .ok (0x12#8, ⟨4, 0⟩)) ∧
      s'.request = some ⟨p0, 0⟩ ∧ s'.buf.holds p0 (bitsOfBytes two) ∧
      p0.abs + 24 ≤ 8 * s'.buf.length ∧ 8 * s'.buf.length < p0.abs + 32 ∧
      s''.request = some ⟨p0, 0⟩ ∧ s''.buf.holds p0 (bitsOfBytes two) ∧
      8 * s''.buf.length < p0.abs + 24 :=
  ⟨by rintro (_ | _ | _) <;> exact ⟨rfl, holds_of_decide (by decide), rfl, rfl, rfl⟩, rfl, holds_of_decide (by decide),
    by decide, by decide, rfl, holds_of_decide (by decide), by decide⟩

/-- Two buffers of two bytes agree everywhere where they agree in their 16 bits. -/
theorem bits_agree {P : Nat → Prop} {x y : List Byte} (hx : x.length = 2) (hy : y.length = 2)
    (h : ∀ q, q < 16 → P q → (Memory.ofBytes x).bit q = (Memory.ofBytes y).bit q) (q : Nat)
    (hP : P q) : (Memory.ofBytes x).bit q = (Memory.ofBytes y).bit q := by
  by_cases hq : q < 16
  · exact h q hq hP
  · rw [bit_ofBytes_of_le x q (by omega), bit_ofBytes_of_le y q (by omega)]

/-- Collapse (a): `[0x80, 0xC1]` and `[0x8C, 0xC1]`. -/
theorem witness_DiscardedBitsDoNotMatter :
    let s := req .reference [0x80#8, 0xC1#8] p0 0
    let s' := req .reference [0x8C#8, 0xC1#8] p0 0
    s.directAddrMode = s'.directAddrMode ∧ s.request = some ⟨p0, 0⟩ ∧ s'.request = some ⟨p0, 0⟩ ∧
      s.buf.length = s'.buf.length ∧ take s.buf p0 4 = .ok (0b1000#4, ⟨0, 4⟩) ∧
      ∀ q, q ≠ p0.abs + 4 → q ≠ p0.abs + 5 → s.buf.bit q = s'.buf.bit q :=
  ⟨rfl, rfl, rfl, rfl, rfl, fun q h1 h2 =>
    bits_agree (P := fun q => q ≠ 4 ∧ q ≠ 5) rfl rfl (by decide) q ⟨h1, h2⟩⟩

/-- Section 3: `[0x89, 0x07]` and `[0x8B, 0x07]`. -/
theorem witness_DirectionBitSymmetry :
    let s := req .reference [0x89#8, 0x07#8] p0 0
    let s' := req .reference [0x8B#8, 0x07#8] p0 0
    s.directAddrMode = s'.directAddrMode ∧ s.request = some ⟨p0, 0⟩ ∧ s'.request = some ⟨p0, 0⟩ ∧
      s.buf.length = s'.buf.length ∧ take s.buf p0 4 = .ok (0b1000#4, ⟨0, 4⟩) ∧
      ∀ q, s.buf.bit q = s'.buf.bit q ↔ q ≠ p0.abs + 6 :=
  ⟨rfl, rfl, rfl, rfl, rfl, fun q =>
    ⟨by rintro h rfl; revert h; decide,
      fun h => bits_agree (P := fun q => q ≠ 6) rfl rfl (by decide) q h⟩⟩

/-- A mod field, a reg field and an rm field that do not fit, and a `w` that does not. -/
theorem witness_TruncatedRegMemMoveNamesTheField :
    (req .refuse [0x89#8] p0 0).request = some ⟨p0, 0⟩ ∧
      take (req .refuse [0x89#8] p0 0).buf p0 4 = .ok (0b1000#4, ⟨0, 4⟩) ∧
      8 * (req .refuse [0x89#8] p0 0).buf.length < p0.abs + 16 ∧
      (req .reference [0x01#8, 0x10#8] ⟨0, 7⟩ 0).request = some ⟨⟨0, 7⟩, 0⟩ ∧
      take (req .reference [0x01#8, 0x10#8] ⟨0, 7⟩ 0).buf ⟨0, 7⟩ 4 = .ok (0b1000#4, ⟨1, 3⟩) ∧
      8 * (req .reference [0x01#8, 0x10#8] ⟨0, 7⟩ 0).buf.length < (⟨0, 7⟩ : Pos).abs + 16 :=
  ⟨rfl, rfl, by decide, rfl, rfl, by decide⟩

theorem witness_ImmRegMoveCompletes :
    (inside .reference [0xB8#8, 0x05#8, 0x00#8] p0 0 ⟨3, 0⟩).request = some ⟨p0, 0⟩ ∧
      (inside .reference [0xB8#8, 0x05#8, 0x00#8] p0 0 ⟨3, 0⟩).cursor = some ⟨3, 0⟩ := by decide

/-- 2.3: `[0xB4, 0xFF]`, `[0xB0]`, `[0xBC, 0x00, 0x80]`, `[0xB8]`, `[0xB8, 0x05]`. -/
theorem witness_ImmediateMoveFromBits :
    let a := req .reference [0xB4#8, 0xFF#8] p0 0
    let b := req .reference [0xB0#8] p0 0
    let c := req .reference [0xBC#8, 0x00#8, 0x80#8] p0 0
    let d := req .reference [0xB8#8] p0 0
    let e := req .reference [0xB8#8, 0x05#8] p0 0
    (a.request = some ⟨p0, 0⟩ ∧
        a.buf.holds p0 (bitsOfBytes [(0b1011#4 ++ 0b0#1 ++ 0b100#3 : BitVec 8)]) ∧
        take a.buf (p0.advance 8) 8 = .ok (0xFF#8, ⟨2, 0⟩)) ∧
      (b.request = some ⟨p0, 0⟩ ∧
        b.buf.holds p0 (bitsOfBytes [(0b1011#4 ++ 0b0#1 ++ 0b000#3 : BitVec 8)]) ∧
        8 * b.buf.length < p0.abs + 16) ∧
      (c.request = some ⟨p0, 0⟩ ∧
        c.buf.holds p0 (bitsOfBytes [(0b1011#4 ++ 0b1#1 ++ 0b100#3 : BitVec 8)]) ∧
        take c.buf (p0.advance 8) 8 = .ok (0x00#8, p0.advance 16) ∧
        take c.buf (p0.advance 16) 8 = .ok (0x80#8, ⟨3, 0⟩)) ∧
      (d.request = some ⟨p0, 0⟩ ∧
        d.buf.holds p0 (bitsOfBytes [(0b1011#4 ++ 0b1#1 ++ 0b000#3 : BitVec 8)]) ∧
        8 * d.buf.length < p0.abs + 16) ∧
      (e.request = some ⟨p0, 0⟩ ∧
        e.buf.holds p0 (bitsOfBytes [(0b1011#4 ++ 0b1#1 ++ 0b000#3 : BitVec 8)]) ∧
        p0.abs + 16 ≤ 8 * e.buf.length ∧ 8 * e.buf.length < p0.abs + 24) :=
  ⟨⟨rfl, holds_of_decide (by decide), rfl⟩, ⟨rfl, holds_of_decide (by decide), by decide⟩,
    ⟨rfl, holds_of_decide (by decide), rfl, rfl⟩, ⟨rfl, holds_of_decide (by decide), by decide⟩,
    ⟨rfl, holds_of_decide (by decide), by decide, by decide⟩⟩

/-- A nibble 1011 that is the buffer's last four bits. -/
theorem witness_TruncatedImmRegMoveNamesTheField :
    (req .reference [0x0B#8] ⟨0, 4⟩ 0).request = some ⟨⟨0, 4⟩, 0⟩ ∧
      take (req .reference [0x0B#8] ⟨0, 4⟩ 0).buf ⟨0, 4⟩ 4 = .ok (0b1011#4, ⟨1, 0⟩) ∧
      8 * (req .reference [0x0B#8] ⟨0, 4⟩ 0).buf.length < (⟨0, 4⟩ : Pos).abs + 8 :=
  ⟨rfl, rfl, by decide⟩

theorem witness_LengthConservation : s3.request = some ⟨p0, 0⟩ ∧ step s3 = .next s3After ∧
    s3After.response = some (.ok s3Record ⟨3, 0⟩) := ⟨rfl, step_s3, rfl⟩

theorem witness_OnlyTwoKindsSucceed : s3.request = some ⟨p0, 0⟩ ∧ step s3 = .next s3After ∧
    s3After.response = some (.ok s3Record ⟨3, 0⟩) := ⟨rfl, step_s3, rfl⟩

theorem witness_DirectOnlyUnderArchitectural :
    let bs : List Byte := [0x8B#8, 0x1E#8, 0x34#8, 0x12#8]
    let rc : Record := ⟨0, 4, .movRegMemToRegMem, .reg ⟨3, .word⟩,
      .loc (.mem (.direct (.word 0x1234#16)))⟩
    let t : State := { idle .architectural bs with response := some (.ok rc ⟨4, 0⟩) }
    (req .architectural bs p0 0).request ≠ none ∧ step (req .architectural bs p0 0) = .next t ∧
      t.response = some (.ok rc ⟨4, 0⟩) ∧ rc.src = .loc (.mem (.direct (.word 0x1234#16))) :=
  ⟨by decide, rfl, rfl, rfl⟩

/-- `[0x89]`: the block's answer is InsufficientInput((1,0), 2). -/
theorem witness_InsufficientInputIsPrecise :
    let t : State := { idle .reference [0x89#8] with
      response := some (.err (.insufficientInput ⟨1, 0⟩ 2)) }
    (req .reference [0x89#8] p0 0).request = some ⟨p0, 0⟩ ∧
      step (req .reference [0x89#8] p0 0) = .next t ∧
      t.response = some (.err (.insufficientInput ⟨1, 0⟩ 2)) := ⟨rfl, rfl, rfl⟩

/-- The three kinds of missing field: the nibble, mod, a whole byte. -/
theorem witness_AlignedInputEndsAtByteBoundaries :
    let t := fun bs e => ({ idle .reference bs with response := some (.err e) } : State)
    (p0.bitOffset = 0 ∧ step (req .reference [] p0 0) = .next (t [] (.insufficientInput p0 4))) ∧
      step (req .reference [0x89#8] p0 0) = .next (t [0x89#8] (.insufficientInput ⟨1, 0⟩ 2)) ∧
      step (req .reference [0xB8#8, 0x05#8] p0 0) =
        .next (t [0xB8#8, 0x05#8] (.insufficientInput ⟨2, 0⟩ 8)) :=
  ⟨⟨rfl, rfl⟩, rfl, rfl⟩

/-- Collapse (b): `[0x89, 0xD8]` and `[0x8B, 0xC3]`; and a `Bare(BP)`. -/
theorem witness_RoundTripUpToTwoCollapses :
    let s := req .reference [0x89#8, 0xD8#8] p0 0
    let s' := req .reference [0x8B#8, 0xC3#8] p0 0
    let rc : Record := ⟨0, 2, .movRegMemToRegMem, .reg ⟨0, .word⟩, .loc (.reg ⟨3, .word⟩)⟩
    let t := fun bs => ({ idle .reference bs with response := some (.ok rc ⟨2, 0⟩) } : State)
    let s6 := req .reference [0x8B#8, 0x06#8] p0 0
    let rec6 : Record := ⟨0, 2, .movRegMemToRegMem, .reg ⟨0, .word⟩, .loc (.mem (.bare .bp))⟩
    let t6 : State := { idle .reference [0x8B#8, 0x06#8] with
      response := some (.ok rec6 ⟨2, 0⟩) }
    s.directAddrMode = s'.directAddrMode ∧ s.request = some ⟨p0, 0⟩ ∧ s'.request = some ⟨p0, 0⟩ ∧
      fetch s.directAddrMode s.buf p0 =
        .ok (.movRegMem 0b10#2 .toRm .word 3#3 (.reg 0#3), ⟨2, 0⟩) ∧
      fetch s'.directAddrMode s'.buf p0 =
        .ok (.movRegMem 0b10#2 .toReg .word 0#3 (.reg 3#3), ⟨2, 0⟩) ∧
      step s = .next (t [0x89#8, 0xD8#8]) ∧ step s' = .next (t [0x8B#8, 0xC3#8]) ∧
      s6.request = some ⟨p0, 0⟩ ∧
      fetch s6.directAddrMode s6.buf p0 =
        .ok (.movRegMem 0b10#2 .toReg .word 0#3 (.bare 6#3), ⟨2, 0⟩) ∧
      step s6 = .next t6 ∧ rec6.src = .loc (.mem (.bare .bp)) :=
  ⟨rfl, rfl, rfl, rfl, rfl, rfl, rfl, rfl, rfl, rfl, rfl⟩

/-- A state of the invariant with a waiting request: an address of 0 fits every ADDR_W. -/
theorem inv_s3 : s3.Inv where
  buf_wf := Memory.ofBytes_wf _
  no_cursor := rfl
  request_width := by
    rintro r ⟨⟩
    exact Nat.two_pow_pos _
  response_legal := by rintro res ⟨⟩

theorem witness_StepKeepsTheInvariant : s3.Inv ∧ step s3 = .next s3After := ⟨inv_s3, step_s3⟩

/-- Each clause: a request posted to an idle block, a byte stored in an idle block. -/
theorem witness_EnvironmentKeepsTheInvariant :
    (State.resetIn .refuse).Inv ∧ (⟨p0, 0⟩ : Request).addrIn < 2 ^ Config.addrW ∧
      post ⟨p0, 0⟩ (State.resetIn .refuse) =
        .next { State.resetIn .refuse with request := some ⟨p0, 0⟩ } ∧
      storeByte 0 1#8 (State.resetIn .refuse) =
        .next { State.resetIn .refuse with buf := Memory.ofBytes [1#8] } := by
  refine ⟨⟨by decide, rfl, by rintro r ⟨⟩, by rintro r ⟨⟩⟩, Nat.two_pow_pos _, rfl, rfl⟩

/-- P4's two requests, for the three statements about a stream. -/
theorem witness_StreamFollowsNext :
    let l := stream stopPolicy 2 ⟨p0, 0⟩ (idle .reference [0xBB#8, 0x34#8, 0x12#8, 0xC7#8, 0x06#8])
    l[0]? = some (⟨p0, 0⟩, .ok ⟨0, 3, .movImmToReg, .reg ⟨3, .word⟩, .imm (.word 0x1234#16)⟩
        ⟨3, 0⟩) ∧
      l[0 + 1]? = some (⟨⟨3, 0⟩, 3⟩,
        .err (.unimplementedVariant .immToMem 0xC#4 ⟨3, 0⟩ ⟨3, 4⟩)) := by decide

theorem witness_StreamRecordsNeverOverlap :
    let l := stream stopPolicy 2 ⟨p0, 0⟩ (idle .reference [0x89#8, 0xD8#8, 0xB0#8, 0x01#8])
    0 < 1 ∧ l[0]? = some (⟨p0, 0⟩,
        .ok ⟨0, 2, .movRegMemToRegMem, .reg ⟨0, .word⟩, .loc (.reg ⟨3, .word⟩)⟩ ⟨2, 0⟩) ∧
      l[1]? = some (⟨⟨2, 0⟩, 2⟩, .ok ⟨2, 2, .movImmToReg, .reg ⟨0, .byte⟩, .imm (.byte 1#8)⟩
        ⟨4, 0⟩) := by decide

theorem witness_StreamAddressesFollowTheStarts :
    ((⟨⟨3, 0⟩, 3⟩ : Request), Result.err (.unimplementedVariant .immToMem 0xC#4 ⟨3, 0⟩ ⟨3, 4⟩)) ∈
      stream stopPolicy 2 ⟨p0, 0⟩
        (idle .reference [0xBB#8, 0x34#8, 0x12#8, 0xC7#8, 0x06#8]) := by decide

theorem witness_StreamStopsAtTheNormalEnd :
    (idle .reference [0x89#8]).request = none ∧ (idle .reference [0x89#8]).cursor = none ∧
      (⟨⟨1, 0⟩, 1⟩ : Request).start = ⟨(idle .reference [0x89#8]).buf.length, 0⟩ := by decide

end Sys2Proof.Tests
end

/-! ## Proofs of the family `10_state.md`

The decoder's laws, what a step answers to a waiting request, and the statements of the family. -/

/-! ### What the buffer shows, field by field -/

namespace Sys2Proof

/-- Bits shown in one buffer are shown in every other that agrees with it there. -/
theorem Memory.holds_congr {m m' : Memory} {p p' : Pos} {bs : List Bool} (h : m.holds p bs)
    (hlen : p'.abs + bs.length ≤ m'.bitLength)
    (hbit : ∀ k, k < bs.length → m'.bit (p'.abs + k) = m.bit (p.abs + k)) : m'.holds p' bs :=
  ⟨hlen, fun k hk => by rw [hbit k hk]; exact h.2 k hk⟩

theorem Memory.bit_ofBytes (bs : List Byte) (q : Nat) :
    (Memory.ofBytes bs).bit q = (bitsOfBytes bs).getD q false := by
  obtain ⟨-, -, hcell⟩ := Memory.cellsFrom_spec bs 0
  have hbyte : (Memory.ofBytes bs).byteAt (q / 8) = bs.getD (q / 8) 0#8 := by
    simpa [Memory.byteAt, Memory.ofBytes, Memory.unlisted] using hcell (q / 8)
  rw [getD_bitsOfBytes, Memory.bit, hbyte]

/-- What the buffer of some bytes shows at its first bit, a buffer shows where those bytes have been
put. -/
theorem Memory.holds_putBits_of_ofBytes {m : Memory} (hm : m.wf) (p : Pos) {bytes : List Byte}
    (hne : bytes ≠ []) {bs : List Bool}
    (h : (Memory.ofBytes bytes).holds (Pos.ofAbs 0) bs) :
    (m.putBits p.abs (bitsOfBytes bytes)).holds p bs := by
  have hle : bs.length ≤ (bitsOfBytes bytes).length := by
    have := h.1
    simpa [length_bitsOfBytes, Memory.bitLength, Memory.ofBytes] using this
  have hput := m.bitLength_putBits p.abs (bitsOfBytes bytes) (by
    obtain ⟨b, bs', rfl⟩ := List.exists_cons_of_ne_nil hne
    simp [bitsOfBytes])
  refine holds_congr h (by omega) fun k hk => ?_
  rw [bit_putBits hm, if_pos (by omega), bit_ofBytes]
  simp

/-- Fields side by side are shown exactly when each is. -/
theorem Memory.bitsAt_eq_append_iff (m : Memory) (q : Nat) {n k : Nat} (a : BitVec n)
    (b : BitVec k) :
    m.bitsAt q (n + k) = a ++ b ↔ m.bitsAt q n = a ∧ m.bitsAt (q + n) k = b := by
  rw [m.bitsAt_append, append_inj_iff]

/-- Format A's first byte, field by field (R46). -/
theorem Memory.bitsAt_regMem_first_iff (m : Memory) (q : Nat) (a : Nibble) (xx : BitVec 2)
    (d w : BitVec 1) :
    m.bitsAt q 8 = a ++ xx ++ d ++ w ↔
      m.bitsAt q 4 = a ∧ m.bitsAt (q + 4) 2 = xx ∧ m.bitsAt (q + 6) 1 = d ∧
        m.bitsAt (q + 7) 1 = w := by
  refine (m.bitsAt_eq_append_iff q (a ++ xx ++ d) w).trans ?_
  rw [m.bitsAt_eq_append_iff, m.bitsAt_eq_append_iff, and_assoc, and_assoc]

/-- Format A's second byte, field by field (R46). -/
theorem Memory.bitsAt_regMem_second_iff (m : Memory) (q : Nat) (md : BitVec 2)
    (reg rm : Field3) :
    m.bitsAt q 8 = md ++ reg ++ rm ↔
      m.bitsAt q 2 = md ∧ m.bitsAt (q + 2) 3 = reg ∧ m.bitsAt (q + 5) 3 = rm := by
  refine (m.bitsAt_eq_append_iff q (md ++ reg) rm).trans ?_
  rw [m.bitsAt_eq_append_iff, and_assoc]

/-- Format B's first byte, field by field (R47). -/
theorem Memory.bitsAt_immReg_first_iff (m : Memory) (q : Nat) (a : Nibble) (w : BitVec 1)
    (reg : Field3) :
    m.bitsAt q 8 = a ++ w ++ reg ↔
      m.bitsAt q 4 = a ∧ m.bitsAt (q + 4) 1 = w ∧ m.bitsAt (q + 5) 3 = reg := by
  refine (m.bitsAt_eq_append_iff q (a ++ w) reg).trans ?_
  rw [m.bitsAt_eq_append_iff, and_assoc]

/-- A format whose bytes are all read is shown when its bytes are. -/
theorem encodeBits_of_all_read {i : Instr} (h : i.bits = 8 * (encode i).length) :
    encodeBits i = bitsOfBytes (encode i) := by
  rw [encodeBits, h, ← length_bitsOfBytes, List.take_length]

/-- What the buffer shows of a format-A instruction (R46). -/
theorem Memory.holds_movRegMem (m : Memory) (p : Pos) (xx : BitVec 2) (d : Direction) (w : Width)
    (reg : Field3) (o : RmOperand) :
    m.holds p (encodeBits (.movRegMem xx d w reg o)) ↔
      (p.abs + 8 ≤ m.bitLength ∧ m.bitsAt p.abs 4 = 0b1000#4 ∧ m.bitsAt (p.abs + 4) 2 = xx ∧
        m.bitsAt (p.abs + 6) 1 = d.bit ∧ m.bitsAt (p.abs + 7) 1 = w.bit) ∧
      (p.abs + 16 ≤ m.bitLength ∧ m.bitsAt (p.abs + 8) 2 = o.modField ∧
        m.bitsAt (p.abs + 10) 3 = reg ∧ m.bitsAt (p.abs + 13) 3 = o.rmField) ∧
      m.holds (p.advance 16) (bitsOfBytes o.dispBytes) := by
  rw [encodeBits_of_all_read (by simp only [Instr.bits, encode, List.length_cons]; omega), encode,
    holds_bytes_cons, holds_bytes_cons, bitsAt_regMem_first_iff, bitsAt_regMem_second_iff,
    Pos.abs_advance, Pos.advance_advance]

/-- What the buffer shows of a format-B instruction (R47). -/
theorem Memory.holds_movImmReg (m : Memory) (p : Pos) (reg : Field3) (imm : Immediate) :
    m.holds p (encodeBits (.movImmReg reg imm)) ↔
      (p.abs + 8 ≤ m.bitLength ∧ m.bitsAt p.abs 4 = 0b1011#4 ∧
        m.bitsAt (p.abs + 4) 1 = imm.width.bit ∧ m.bitsAt (p.abs + 5) 3 = reg) ∧
      m.holds (p.advance 8) (bitsOfBytes imm.bytes) := by
  rw [encodeBits_of_all_read (by simp only [Instr.bits, encode, List.length_cons]; omega), encode,
    holds_bytes_cons, bitsAt_immReg_first_iff]

/-- What the buffer shows of an instruction of which only the nibble is read. -/
theorem Memory.holds_nibbleOnly (m : Memory) (p : Pos) {i : Instr} (h : i.bits = 4) :
    m.holds p (encodeBits i) ↔ p.abs + 4 ≤ m.bitLength ∧ m.bitsAt p.abs 4 = i.nibble := by
  cases i with
  | movRegMem xx d w reg rm => simp only [Instr.bits] at h; omega
  | movImmReg reg imm => simp only [Instr.bits] at h; omega
  | _ => exact m.holds_nibble p _

/-! ### What the decoder reads -/

/-- The flag bits and their meanings correspond (R46, R47). -/
@[simp] theorem Width.ofBit_bit (w : Width) : Width.ofBit w.bit = w := by cases w <;> rfl

@[simp] theorem Width.bit_ofBit (b : BitVec 1) : (Width.ofBit b).bit = b := by
  revert b; decide

@[simp] theorem Direction.ofBit_bit (d : Direction) : Direction.ofBit d.bit = d := by
  cases d <;> rfl

@[simp] theorem Direction.bit_ofBit (b : BitVec 1) : (Direction.ofBit b).bit = b := by
  revert b; decide

/-- A sequence of extractions succeeds exactly when its first field fits and the rest succeeds. -/
theorem take_bind_ok_iff {β : Type} {m : Memory} {c : Pos} {n : Nat}
    {f : BitVec n × Pos → Except Error β} {b : β} :
    take m c n >>= f = .ok b ↔
      c.abs + n ≤ m.bitLength ∧ f (m.bitsAt c.abs n, c.advance n) = .ok b := by
  obtain ⟨h, e⟩ | ⟨h, e⟩ := take_cases m c n
  · rw [bind_of_ok e]; simp [h]
  · rw [bind_of_error e]; simp; omega

/-- The immediate decoder succeeds exactly when the buffer shows the literal's bytes (R73 to
R75). -/
theorem immOfWidth_ok_iff {m : Memory} {c c' : Pos} {w : Width} {imm : Immediate} :
    immOfWidth m c w = .ok (imm, c') ↔
      imm.width = w ∧ m.holds c (bitsOfBytes imm.bytes) ∧
        c' = c.advance (8 * imm.bytes.length) := by
  constructor
  · intro h
    cases w with
    | byte =>
      obtain ⟨⟨v, c1⟩, h1, h2⟩ := bind_ok_inv (show take m c 8 >>= _ = _ from h)
      cases h2
      obtain ⟨h3, h4, h5⟩ := take_ok_iff.mp h1
      exact ⟨rfl, (m.holds_byte c v).mpr ⟨h3, h4⟩, h5⟩
    | word =>
      obtain ⟨⟨v, c1⟩, h1, h2⟩ := bind_ok_inv (show takeHalf m c >>= _ = _ from h)
      cases h2
      exact ⟨rfl, takeHalf_ok_iff.mp h1⟩
  · rintro ⟨rfl, hh, rfl⟩
    cases imm with
    | byte v =>
      obtain ⟨h1, h2⟩ := (m.holds_byte c v).mp hh
      exact bind_of_ok (take_ok_iff.mpr ⟨h1, h2, rfl⟩)
    | word v => exact bind_of_ok (takeHalf_ok_iff.mpr ⟨hh, rfl⟩)

/-- Format A is decoded exactly when its twelve bits of fields are there and the addressing decoder
answers. -/
theorem fetchRegMem_ok_iff {mode : DirectAddrMode} {m : Memory} {c c' : Pos} {i : Instr} :
    fetchRegMem mode m c = .ok (i, c') ↔
      c.abs + 12 ≤ m.bitLength ∧ ∃ o,
        fetchRm mode m (c.advance 12) (m.bitsAt (c.abs + 4) 2) (m.bitsAt (c.abs + 9) 3) =
            .ok (o, c') ∧
          i = .movRegMem (m.bitsAt c.abs 2) (Direction.ofBit (m.bitsAt (c.abs + 2) 1))
            (Width.ofBit (m.bitsAt (c.abs + 3) 1)) (m.bitsAt (c.abs + 6) 3) o := by
  simp only [fetchRegMem, take_bind_ok_iff, Pos.abs_advance, Pos.advance_advance]
  constructor
  · rintro ⟨-, -, -, -, -, h, hrm⟩
    obtain ⟨⟨o, c8⟩, h1, h2⟩ := bind_ok_inv hrm
    cases h2
    exact ⟨by omega, o, h1, rfl⟩
  · rintro ⟨h, o, h1, rfl⟩
    exact ⟨by omega, by omega, by omega, by omega, by omega, by omega, bind_of_ok h1⟩

/-- Format B is decoded exactly when its four bits of fields are there and the immediate decoder
answers. -/
theorem fetchImmReg_ok_iff {m : Memory} {c c' : Pos} {i : Instr} :
    fetchImmReg m c = .ok (i, c') ↔
      c.abs + 4 ≤ m.bitLength ∧ ∃ imm,
        immOfWidth m (c.advance 4) (Width.ofBit (m.bitsAt c.abs 1)) = .ok (imm, c') ∧
          i = .movImmReg (m.bitsAt (c.abs + 1) 3) imm := by
  simp only [fetchImmReg, take_bind_ok_iff, Pos.abs_advance, Pos.advance_advance]
  constructor
  · rintro ⟨-, h, himm⟩
    obtain ⟨⟨imm, c4⟩, h1, h2⟩ := bind_ok_inv himm
    cases h2
    exact ⟨by omega, imm, h1, rfl⟩
  · rintro ⟨h, imm, h1, rfl⟩
    exact ⟨by omega, by omega, bind_of_ok h1⟩

/-- The decoder succeeds exactly when the nibble is there and its row succeeds (R59). -/
theorem fetch_ok_iff_row {mode : DirectAddrMode} {m : Memory} {p c : Pos} {i : Instr} :
    fetch mode m p = .ok (i, c) ↔
      p.abs + 4 ≤ m.bitLength ∧
        fetchRow mode m (m.bitsAt p.abs 4) (p.advance 4) = .ok (i, c) :=
  take_bind_ok_iff

/-- Format A is decoded exactly when the buffer shows a well-formed encoding of it. -/
theorem fetch_movRegMem_iff {mode : DirectAddrMode} {m : Memory} {p c : Pos} {i : Instr} :
    (p.abs + 4 ≤ m.bitLength ∧ m.bitsAt p.abs 4 = 0b1000#4 ∧
        fetchRegMem mode m (p.advance 4) = .ok (i, c)) ↔
      ∃ xx d w reg o, i = .movRegMem xx d w reg o ∧ i.wf mode = true ∧
        m.holds p (encodeBits i) ∧ c = p.advance i.bits := by
  rw [fetchRegMem_ok_iff]
  simp only [Pos.abs_advance, Pos.advance_advance, Nat.add_assoc, Nat.reduceAdd]
  constructor
  · rintro ⟨-, hnib, h16, o, ho, rfl⟩
    obtain ⟨hwf, hmod, hrm, hdisp, rfl⟩ := (fetchRm_ok_iff (by simpa using h16)).mp ho
    refine ⟨_, _, _, _, _, rfl, hwf, (m.holds_movRegMem p _ _ _ _ _).mpr ⟨?_, ?_, hdisp⟩, ?_⟩
    · simp [hnib]; omega
    · simp [hmod, hrm, h16]
    · simp [Instr.bits]
  · rintro ⟨xx, d, w, reg, o, rfl, hwf, hh, rfl⟩
    obtain ⟨⟨h8, hnib, rfl, hd, hw⟩, ⟨h16, hmod, rfl, hrm⟩, hdisp⟩ :=
      (m.holds_movRegMem p _ _ _ _ _).mp hh
    refine ⟨by omega, hnib, h16, o, (fetchRm_ok_iff (by simpa using h16)).mpr
      ⟨hwf, hmod.symm, hrm.symm, hdisp, ?_⟩, ?_⟩
    · simp [Instr.bits]
    · simp [hd, hw]

/-- Format B is decoded exactly when the buffer shows an encoding of it. -/
theorem fetch_movImmReg_iff {mode : DirectAddrMode} {m : Memory} {p c : Pos} {i : Instr} :
    (p.abs + 4 ≤ m.bitLength ∧ m.bitsAt p.abs 4 = 0b1011#4 ∧
        fetchImmReg m (p.advance 4) = .ok (i, c)) ↔
      ∃ reg imm, i = .movImmReg reg imm ∧ i.wf mode = true ∧
        m.holds p (encodeBits i) ∧ c = p.advance i.bits := by
  rw [fetchImmReg_ok_iff]
  simp only [Pos.abs_advance, Pos.advance_advance, Nat.add_assoc, Nat.reduceAdd,
    immOfWidth_ok_iff]
  constructor
  · rintro ⟨-, hnib, h8, imm, ⟨hw, himm, rfl⟩, rfl⟩
    refine ⟨_, _, rfl, rfl, (m.holds_movImmReg p _ _).mpr ⟨⟨h8, hnib, ?_, rfl⟩, himm⟩, rfl⟩
    simp [hw]
  · rintro ⟨reg, imm, rfl, -, hh, rfl⟩
    obtain ⟨⟨h8, hnib, hw, rfl⟩, himm⟩ := (m.holds_movImmReg p _ _).mp hh
    exact ⟨by omega, hnib, h8, imm, ⟨by simp [hw], himm, rfl⟩, rfl⟩

/-- The decoder answers an instruction exactly when it is well formed and the buffer shows its
encoding; the cursor is then past it (R46 to R53). -/
theorem fetch_ok_iff {mode : DirectAddrMode} {m : Memory} {p c : Pos} {i : Instr} :
    fetch mode m p = .ok (i, c) ↔
      i.wf mode = true ∧ m.holds p (encodeBits i) ∧ c = p.advance i.bits := by
  rw [fetch_ok_iff_row]
  constructor
  · rintro ⟨hlen, h⟩
    obtain hnib | hnib | ⟨j, hj, hnib⟩ := nibble_cases (m.bitsAt p.abs 4)
    · rw [hnib, fetchRow_regMem] at h
      obtain ⟨-, -, -, -, -, -, hi⟩ := fetch_movRegMem_iff.mp ⟨hlen, hnib, h⟩
      exact hi
    · rw [hnib, fetchRow_immReg] at h
      obtain ⟨-, -, -, hi⟩ := (fetch_movImmReg_iff (mode := mode)).mp ⟨hlen, hnib, h⟩
      exact hi
    · rw [← hnib, fetchRow_nibbleOnly mode m _ hj] at h
      cases h
      refine ⟨?_, (m.holds_nibbleOnly p hj).mpr ⟨hlen, hnib.symm⟩, by rw [hj]⟩
      cases i with
      | movRegMem xx d w reg rm => simp only [Instr.bits] at hj; omega
      | _ => rfl
  · rintro ⟨hwf, hh, rfl⟩
    cases i with
    | movRegMem xx d w reg o =>
      obtain ⟨hlen, hnib, h⟩ := fetch_movRegMem_iff.mpr ⟨xx, d, w, reg, o, rfl, hwf, hh, rfl⟩
      exact ⟨hlen, by rw [hnib, fetchRow_regMem, h]⟩
    | movImmReg reg imm =>
      obtain ⟨hlen, hnib, h⟩ := fetch_movImmReg_iff.mpr ⟨reg, imm, rfl, hwf, hh, rfl⟩
      exact ⟨hlen, by rw [hnib, fetchRow_immReg, h]⟩
    | _ =>
      obtain ⟨hlen, hnib⟩ := (m.holds_nibbleOnly p rfl).mp hh
      exact ⟨hlen, by rw [hnib]; rfl⟩

/-- The nibble at the start of a decoded instruction is its row's (R53). -/
theorem take_nibble_of_holds {m : Memory} {p : Pos} {i : Instr} (h : m.holds p (encodeBits i)) :
    take m p 4 = .ok (i.nibble, p.advance 4) := by
  rw [take_ok_iff]
  cases i with
  | movRegMem xx d w reg o =>
    obtain ⟨⟨hlen, hnib, -⟩, -⟩ := (m.holds_movRegMem p _ _ _ _ _).mp h
    exact ⟨by omega, hnib, rfl⟩
  | movImmReg reg imm =>
    obtain ⟨⟨hlen, hnib, -⟩, -⟩ := (m.holds_movImmReg p _ _).mp h
    exact ⟨by omega, hnib, rfl⟩
  | _ =>
    obtain ⟨hlen, hnib⟩ := (m.holds_nibbleOnly p rfl).mp h
    exact ⟨hlen, hnib, rfl⟩

theorem decodeTableWord_eq_some {nbits w : Nat} {i : Instr} (h : decodeTableWord nbits w = some i) :
    ∃ c, fetch Config.directAddrModeAtReset (Memory.ofBytes (tableBytes nbits w)) (Pos.ofAbs 0) =
      .ok (i, c) := by
  unfold decodeTableWord at h
  split at h
  · rename_i ic hf
    cases h
    exact ⟨ic.2, hf⟩
  · cases h

/-! ### Base combinations -/

theorem Address.ofRm_eq_bp_iff (rm : Field3) : Address.ofRm rm = .bp ↔ rm = 0b110#3 := by
  revert rm; decide

/-- The tag of a base combination is the `rm` value that selects it (R18, R30). -/
theorem Address.ofRm_tag (rm : Field3) : (Address.ofRm rm).tag = rm.toNat := by
  revert rm; decide

/-! ### How the decoder fails -/

/-- A computation fails only as an extraction of one of the widths the block reads (R89). -/
def FailsAsExtraction {α : Type} (x : Except Error α) : Prop :=
  ∀ e, x = .error e → ∃ q n, e = .insufficientInput q n ∧ (n = 1 ∨ n = 2 ∨ n = 3 ∨ n = 4 ∨ n = 8)

theorem failsAsExtraction_ok {α : Type} (a : α) : FailsAsExtraction (.ok a) := by
  rintro e ⟨⟩

theorem failsAsExtraction_take (m : Memory) (c : Pos) {n : Nat}
    (hn : n = 1 ∨ n = 2 ∨ n = 3 ∨ n = 4 ∨ n = 8) : FailsAsExtraction (take m c n) := by
  intro e he
  obtain ⟨-, h⟩ | ⟨-, h⟩ := take_cases m c n
  · cases h.symm.trans he
  · cases h.symm.trans he
    exact ⟨c, n, rfl, hn⟩

theorem FailsAsExtraction.bind {α β : Type} {x : Except Error α} {f : α → Except Error β}
    (hx : FailsAsExtraction x) (hf : ∀ a, FailsAsExtraction (f a)) :
    FailsAsExtraction (x >>= f) := by
  intro e he
  obtain h | ⟨a, -, h⟩ := bind_error_inv he
  · exact hx e h
  · exact hf a e h

theorem failsAsExtraction_takeHalf (m : Memory) (c : Pos) : FailsAsExtraction (takeHalf m c) :=
  (failsAsExtraction_take m c (by decide)).bind fun ⟨_, c1⟩ =>
    (failsAsExtraction_take m c1 (by decide)).bind fun _ => failsAsExtraction_ok _

theorem failsAsExtraction_immOfWidth (m : Memory) (c : Pos) (w : Width) :
    FailsAsExtraction (immOfWidth m c w) := by
  cases w with
  | byte => exact (failsAsExtraction_take m c (by decide)).bind fun _ => failsAsExtraction_ok _
  | word => exact (failsAsExtraction_takeHalf m c).bind fun _ => failsAsExtraction_ok _

theorem failsAsExtraction_fetchRm (mode : DirectAddrMode) (m : Memory) (c : Pos) (md : BitVec 2)
    (rm : Field3) : FailsAsExtraction (fetchRm mode m c md rm) := by
  obtain rfl | rfl | rfl | rfl := mode_cases md
  · by_cases hd : rm = 0b110#3 ∧ mode = .architectural
    · obtain ⟨rfl, rfl⟩ := hd
      rw [fetchRm_direct]
      exact (failsAsExtraction_takeHalf m c).bind fun _ => failsAsExtraction_ok _
    · rw [fetchRm_bare mode m c rm hd]
      exact failsAsExtraction_ok _
  · rw [fetchRm_disp8]
    exact (failsAsExtraction_take m c (by decide)).bind fun _ => failsAsExtraction_ok _
  · rw [fetchRm_disp16]
    exact (failsAsExtraction_takeHalf m c).bind fun _ => failsAsExtraction_ok _
  · rw [fetchRm_reg]
    exact failsAsExtraction_ok _

theorem failsAsExtraction_fetchRegMem (mode : DirectAddrMode) (m : Memory) (c : Pos) :
    FailsAsExtraction (fetchRegMem mode m c) :=
  (failsAsExtraction_take m c (by decide)).bind fun ⟨_, c2⟩ =>
    (failsAsExtraction_take m c2 (by decide)).bind fun ⟨_, c3⟩ =>
    (failsAsExtraction_take m c3 (by decide)).bind fun ⟨_, c4⟩ =>
    (failsAsExtraction_take m c4 (by decide)).bind fun ⟨md, c5⟩ =>
    (failsAsExtraction_take m c5 (by decide)).bind fun ⟨_, c6⟩ =>
    (failsAsExtraction_take m c6 (by decide)).bind fun ⟨rm, c7⟩ =>
    (failsAsExtraction_fetchRm mode m c7 md rm).bind fun _ => failsAsExtraction_ok _

theorem failsAsExtraction_fetchImmReg (m : Memory) (c : Pos) :
    FailsAsExtraction (fetchImmReg m c) :=
  (failsAsExtraction_take m c (by decide)).bind fun ⟨w, c2⟩ =>
    (failsAsExtraction_take m c2 (by decide)).bind fun ⟨_, c3⟩ =>
    (failsAsExtraction_immOfWidth m c3 (Width.ofBit w)).bind fun _ => failsAsExtraction_ok _

/-- Decoding fails only where a field of 1, 2, 3, 4 or 8 bits does not fit (R89). -/
theorem failsAsExtraction_fetch (mode : DirectAddrMode) (m : Memory) (p : Pos) :
    FailsAsExtraction (fetch mode m p) := by
  refine (failsAsExtraction_take m p (by decide)).bind fun ⟨nib, c1⟩ => ?_
  obtain rfl | rfl | ⟨i, hi, rfl⟩ := nibble_cases nib
  · exact failsAsExtraction_fetchRegMem mode m c1
  · exact failsAsExtraction_fetchImmReg m c1
  · show FailsAsExtraction (fetchRow mode m i.nibble c1)
    rw [fetchRow_nibbleOnly mode m c1 hi]
    exact failsAsExtraction_ok _

end Sys2Proof

/-! ### What a step answers -/

namespace Sys2Proof.Machine

/-- The response that an instruction decoded for request `r`, the cursor `c` past it, gives under a
configuration: `exec_eq_answer` ties it to the meanings. -/
def Instr.answer (mode : DirectAddrMode) (r : Request) (c : Pos) : Instr → Result
  | .movRegMem _ d w reg rm =>
    if rm.declined mode then .err (.unimplementedVariant .regMemMove 0b1000#4 r.start c)
    else .ok (stamp r c .movRegMemToRegMem (d.dst (.reg ⟨reg, w⟩) (rm.location w))
      (.loc (d.src (.reg ⟨reg, w⟩) (rm.location w)))) c
  | .movImmReg reg imm => .ok (stamp r c .movImmToReg (.reg ⟨reg, imm.width⟩) (.imm imm)) c
  | .movImmMem => .err (.unimplementedVariant .immToMem 0b1100#4 r.start c)
  | .movAcc => .err (.unimplementedVariant .accMove 0b1010#4 r.start c)
  | i => .err (.unsupportedOpcode i.nibble r.start c)

/-- The response to a request: the first failing extraction, or the decoded instruction's. -/
def answerTo (mode : DirectAddrMode) (m : Memory) (r : Request) : Result :=
  match fetch mode m r.start with
  | .error e => .err e
  | .ok ic => Instr.answer mode r ic.2 ic.1

/-- Inside a transaction every well-formed instruction completes with its response. -/
theorem exec_eq_answer {s : State} {r : Request} {c : Pos} {i : Instr} (hr : s.request = some r)
    (hc : s.cursor = some c) (hwf : i.wf s.directAddrMode = true) :
    exec i s = .next (respond (Instr.answer s.directAddrMode r c i) s) := by
  cases i with
  | movRegMem xx d w reg rm =>
    have hrm : rm.wf s.directAddrMode = true := hwf
    refine (inTransaction_eq hr hc _).trans ?_
    rw [if_neg (by simp [hrm]), Instr.answer]
    split <;> rfl
  | _ => exact inTransaction_eq hr hc _

theorem step_of_fetch_ok {s : State} {r : Request} {i : Instr} {c : Pos} (hr : s.request = some r)
    (hf : fetch s.directAddrMode s.buf r.start = .ok (i, c)) :
    step s = exec i { s with cursor := some c } := by
  simp [step, hr, hf]

theorem step_of_idle {s : State} (hr : s.request = none) : step s = .next s := by
  simp [step, hr]

/-- A step with a waiting request answers it and does nothing else (R27). -/
theorem step_eq_answerTo {s : State} {r : Request} (hr : s.request = some r) :
    step s = .next (respond (answerTo s.directAddrMode s.buf r) s) := by
  unfold answerTo
  cases hf : fetch s.directAddrMode s.buf r.start with
  | error e => simp [step, hr, hf, raise]
  | ok ic =>
    rw [step_of_fetch_ok hr hf]
    exact exec_eq_answer hr rfl (fetch_ok_iff.mp hf).1

/-- What stands in the response port after a step that answered a request. -/
theorem response_of_step {s t : State} {r : Request} {res : Result} (hr : s.request = some r)
    (ht : step s = .next t) (hres : t.response = some res) :
    answerTo s.directAddrMode s.buf r = res := by
  rw [step_eq_answerTo hr] at ht
  cases ht
  simpa using hres

/-- Everything a request can be answered with: an extraction's failure, or the response of the
well-formed instruction the buffer shows at the start. -/
theorem answerTo_cases (mode : DirectAddrMode) (m : Memory) (r : Request) :
    (∃ e, fetch mode m r.start = .error e ∧ answerTo mode m r = .err e) ∨
      ∃ i, i.wf mode = true ∧ m.holds r.start (encodeBits i) ∧
        answerTo mode m r = Instr.answer mode r (r.start.advance i.bits) i := by
  unfold answerTo
  cases hf : fetch mode m r.start with
  | error e => exact .inl ⟨e, rfl, rfl⟩
  | ok ic =>
    obtain ⟨hwf, hh, hc⟩ := fetch_ok_iff.mp (show _ = Except.ok (ic.1, ic.2) from hf)
    exact .inr ⟨ic.1, hwf, hh, by rw [← hc]⟩

/-- Only the two move families succeed, each with the record of its operands (R77, R79). -/
theorem Instr.answer_ok {mode : DirectAddrMode} {r : Request} {c next : Pos} {i : Instr}
    {rec : Record} (h : Instr.answer mode r c i = .ok rec next) :
    (∃ xx d w reg rm, i = .movRegMem xx d w reg rm ∧ rm.declined mode = false ∧
        rec = stamp r c .movRegMemToRegMem (d.dst (.reg ⟨reg, w⟩) (rm.location w))
          (.loc (d.src (.reg ⟨reg, w⟩) (rm.location w)))) ∨
      ∃ reg imm, i = .movImmReg reg imm ∧
        rec = stamp r c .movImmToReg (.reg ⟨reg, imm.width⟩) (.imm imm) := by
  cases i with
  | movRegMem xx d w reg rm =>
    rw [Instr.answer] at h
    split at h
    · cases h
    · rename_i hd
      cases h
      exact .inl ⟨xx, d, w, reg, rm, rfl, by simpa using hd, rfl⟩
  | movImmReg reg imm =>
    cases h
    exact .inr ⟨reg, imm, rfl, rfl⟩
  | _ => cases h

/-- A request answered with a record had a well-formed instruction in front of it. -/
theorem answerTo_ok {mode : DirectAddrMode} {m : Memory} {r : Request} {rec : Record} {next : Pos}
    (h : answerTo mode m r = .ok rec next) :
    ∃ i, i.wf mode = true ∧ m.holds r.start (encodeBits i) ∧
      Instr.answer mode r (r.start.advance i.bits) i = .ok rec next := by
  obtain ⟨e, -, he⟩ | ⟨i, hwf, hh, hi⟩ := answerTo_cases mode m r
  · cases he.symm.trans h
  · exact ⟨i, hwf, hh, hi.symm.trans h⟩

/-- Where a format-A record has a memory operand, that is the `rm` operand (R78). -/
theorem eq_mem_of_dst_or_src {d : Direction} {reg : Register} {l : Location}
    {ea : EffectiveAddress}
    (h : d.dst (.reg reg) l = .mem ea ∨ d.src (.reg reg) l = .mem ea) : l = .mem ea := by
  cases d with
  | toReg => exact h.resolve_left (by simp [Direction.dst])
  | toRm => exact h.resolve_right (by simp [Direction.src])

/-! ### Legal responses -/

/-- The operand forms that decode and are not declined name legal locations (R19, R71). -/
theorem location_legal {mode : DirectAddrMode} {rm : RmOperand} (w : Width)
    (hwf : rm.wf mode = true) (hd : rm.declined mode = false) :
    Location.legal mode w (rm.location w) := by
  cases rm with
  | reg x => rfl
  | bare x =>
    intro hbp
    obtain rfl := (Address.ofRm_eq_bp_iff x).mp hbp
    cases mode with
    | reference => rfl
    | architectural => simp [RmOperand.wf] at hwf
    | refuse => simp [RmOperand.declined] at hd
  | disp8 x d => trivial
  | disp16 x d => trivial
  | direct a => exact ⟨by simpa [RmOperand.wf] using hwf, rfl⟩

/-- A format-A record is legal when its `rm` operand is: `reg` is a register of the instruction's
width in either direction (R25, R78). -/
theorem regMem_record_legal {mode : DirectAddrMode} {a n : Nat} (d : Direction) (w : Width)
    (reg : Field3) {l : Location} (ha : a < 2 ^ Config.addrW) (h2 : 2 ≤ n) (h4 : n ≤ 4)
    (hl : Location.legal mode w l) :
    Record.legal mode { address := a, length := n, kind := .movRegMemToRegMem,
                        dst := d.dst (.reg ⟨reg, w⟩) l, src := .loc (d.src (.reg ⟨reg, w⟩) l) } := by
  refine ⟨ha, h2, h4, ?_⟩
  cases d with
  | toReg => exact hl
  | toRm =>
    cases l with
    | reg x => exact hl.symm
    | mem ea => exact hl

/-- A record's two to four bytes (R44, R81). -/
theorem record_length_bounds (p : Pos) {i : Instr} (h : i.bits ≠ 4) :
    2 ≤ ((p.advance i.bits).abs - p.abs) / 8 ∧ ((p.advance i.bits).abs - p.abs) / 8 ≤ 4 := by
  rw [Pos.abs_advance, Nat.add_sub_cancel_left]
  cases i with
  | movRegMem xx d w reg rm =>
    have := Laws.EncodeShape.dispBytes_length_le rm
    simp only [Instr.bits]
    omega
  | movImmReg reg imm =>
    have := Laws.EncodeShape.bytes_length imm
    simp only [Instr.bits]
    omega
  | _ => exact absurd rfl h

/-- Every response of a well-formed instruction is legal (R24 to R26, R90, R91). -/
theorem Instr.answer_legal {mode : DirectAddrMode} {r : Request} {i : Instr}
    (hwf : i.wf mode = true) (ha : r.addrIn < 2 ^ Config.addrW) :
    Result.legal mode (Instr.answer mode r (r.start.advance i.bits) i) := by
  cases i with
  | movRegMem xx d w reg rm =>
    rw [Instr.answer]
    split
    · rename_i hd
      obtain ⟨rfl, rfl⟩ : mode = .refuse ∧ rm = .bare 0b110#3 := by
        simpa [RmOperand.declined] using hd
      exact .inr (.inr ⟨rfl, rfl, rfl, rfl⟩)
    · rename_i hd
      obtain ⟨h2, h4⟩ := record_length_bounds r.start (i := .movRegMem xx d w reg rm)
        (by simp only [Instr.bits]; omega)
      exact regMem_record_legal d w reg ha h2 h4 (location_legal w hwf (by simpa using hd))
  | movImmReg reg imm =>
    obtain ⟨h2, h4⟩ := record_length_bounds r.start (i := .movImmReg reg imm)
      (by simp only [Instr.bits]; omega)
    exact ⟨ha, h2, h4, rfl⟩
  | movImmMem => exact .inl ⟨rfl, rfl, rfl⟩
  | movAcc => exact .inr (.inl ⟨rfl, rfl, rfl⟩)
  | _ => exact ⟨by decide, rfl⟩

/-- Every response to a request with an address of ADDR_W bits is legal. -/
theorem answerTo_legal (mode : DirectAddrMode) (m : Memory) {r : Request}
    (ha : r.addrIn < 2 ^ Config.addrW) : Result.legal mode (answerTo mode m r) := by
  obtain ⟨e, hf, he⟩ | ⟨i, hwf, -, hi⟩ := answerTo_cases mode m r
  · rw [he]
    obtain ⟨q, n, rfl, hn⟩ := failsAsExtraction_fetch mode m r.start e hf
    exact hn
  · rw [hi]
    exact Instr.answer_legal hwf ha

/-! ### The statements -/

/-- Settles O48: an idle step changes nothing, and a step with a request leaves the buffer, clears the
cursor and answers a legal response (`answerTo_legal`). -/
theorem stepKeepsTheInvariant : Obligations.StepKeepsTheInvariant := by
  intro s t hinv ht
  cases hr : s.request with
  | none =>
    rw [step_of_idle hr] at ht
    cases ht
    exact hinv
  | some r =>
    rw [step_eq_answerTo hr] at ht
    cases ht
    refine ⟨hinv.buf_wf, rfl, by simp, fun res hres => ?_⟩
    cases hres
    exact answerTo_legal _ _ (hinv.request_width r hr)

/-- Settles O2: a step without a request is idle, one with a request answers it. -/
theorem everyRequestGetsOneResponse : Obligations.EveryRequestGetsOneResponse := by
  refine ⟨fun s => ?_, fun s r hr => ⟨_, _, step_eq_answerTo hr, rfl, rfl, rfl⟩⟩
  cases hr : s.request with
  | none => exact ⟨s, step_of_idle hr⟩
  | some r => exact ⟨_, step_eq_answerTo hr⟩

/-- Settles O4: the response is `answerTo` of configuration, buffer and request. -/
theorem responseDependsOnTheRequestAlone : Obligations.ResponseDependsOnTheRequestAlone := by
  intro s s' r hmode hbuf hr hr'
  refine ⟨_, _, step_eq_answerTo hr, step_eq_answerTo hr', ?_, by simp⟩
  simp [hmode, hbuf]

/-- Settles O43: a record comes from one of the two move instructions, whose nibble stands at the
start. -/
theorem onlyTwoKindsSucceed : Obligations.OnlyTwoKindsSucceed := by
  intro s t r rec next hr ht hres
  obtain ⟨i, -, hh, hi⟩ := answerTo_ok (response_of_step hr ht hres)
  refine ⟨i.nibble, _, take_nibble_of_holds hh, ?_⟩
  obtain ⟨xx, d, w, reg, rm, rfl, -, rfl⟩ | ⟨reg, imm, rfl, rfl⟩ := Instr.answer_ok hi
  · exact .inl ⟨rfl, rfl⟩
  · exact .inr ⟨rfl, rfl⟩

/-- Settles O44: a direct operand is the `rm` operand of a format-A move, and legal there. -/
theorem directOnlyUnderArchitectural : Obligations.DirectOnlyUnderArchitectural := by
  intro s t rec next a hne ht hres hdirect
  obtain ⟨r, hr⟩ := Option.ne_none_iff_exists'.mp hne
  obtain ⟨i, hwf, -, hi⟩ := answerTo_ok (response_of_step hr ht hres)
  obtain ⟨xx, d, w, reg, rm, rfl, hd, rfl⟩ | ⟨reg, imm, rfl, rfl⟩ := Instr.answer_ok hi
  · have hloc : rm.location w = .mem (.direct a) :=
      eq_mem_of_dst_or_src (by simpa using hdirect)
    have hlegal := location_legal w hwf hd
    rw [hloc] at hlegal
    obtain ⟨hmode, hword⟩ := hlegal
    cases a with
    | byte v => cases hword
    | word v => exact ⟨hmode, v, rfl⟩
  · simp at hdirect

/-- Settles O28: the decoder read the instruction in the table word's own buffer, so the buffer the
word has been put into shows its encoding at the start (`fetch_ok_iff`). -/
theorem loadedWordIsTheNextInstruction : Obligations.LoadedWordIsTheNextInstruction := by
  intro s nbits w i hbuf hmode hi
  obtain ⟨c, hc⟩ := decodeTableWord_eq_some hi
  obtain ⟨hwf, hh, -⟩ := fetch_ok_iff.mp hc
  refine step_of_fetch_ok (withFetchWord_request s nbits w) (fetch_ok_iff.mpr ⟨?_, ?_, rfl⟩)
  · rw [withFetchWord_directAddrMode, hmode]
    exact hwf
  · rw [withFetchWord_buf]
    exact Memory.holds_putBits_of_ofBytes hbuf _ (by simp [tableBytes]) hh

/-! ### Cursor, base combinations, bus tags -/

/-- Settles O12: a position counts the bits before it. -/
theorem advancingRollsOverBytes : Obligations.AdvancingRollsOverBytes := by
  intro i o n
  refine ⟨?_, ?_, rfl⟩ <;> simp only [Pos.advance, Pos.ofAbs, Pos.abs] <;> omega

/-- Settles O29, entry by entry. -/
theorem baseCombinationsInFieldOrder : Obligations.BaseCombinationsInFieldOrder :=
  ⟨rfl, rfl, rfl, rfl, rfl, rfl, rfl, rfl⟩

/-- Settles O55, variant by variant. -/
theorem busTagsFollowTheTable : Obligations.BusTagsFollowTheTable :=
  ⟨fun _ _ => rfl, fun _ => rfl, fun _ _ => rfl, fun _ _ _ => rfl, fun _ _ _ _ => rfl, rfl, rfl,
    fun _ => rfl, fun _ => rfl, fun _ => rfl, fun _ => rfl, fun _ => rfl, fun _ _ => rfl,
    fun _ => rfl, fun _ => rfl, fun _ => rfl, Address.ofRm_tag, fun _ => ⟨rfl, rfl⟩⟩

end Sys2Proof.Machine

/-! ## Proofs of the family `20_memory.md`

Which bits a decode depends on, what the caller's operations and the meanings leave unchanged, and the
statements of the family. -/

/-! ### Which bits the decoder depends on -/

namespace Sys2Proof

/-- Two buffers of one length that show the same `n` bits from position `p` on. -/
def Memory.AgreeFrom (m m' : Memory) (p : Pos) (n : Nat) : Prop :=
  m.length = m'.length ∧ ∀ k, k < n → m.bit (p.abs + k) = m'.bit (p.abs + k)

/-- What is left of the agreement past the first `j` bits. -/
theorem Memory.AgreeFrom.advance {m m' : Memory} {p : Pos} {n : Nat} (h : m.AgreeFrom m' p n)
    (j : Nat) : m.AgreeFrom m' (p.advance j) (n - j) := by
  refine ⟨h.1, fun k hk => ?_⟩
  rw [Pos.abs_advance, Nat.add_assoc]
  exact h.2 (j + k) (by omega)

theorem take_congr {m m' : Memory} {c : Pos} {N n : Nat} (h : m.AgreeFrom m' c N) (hn : n ≤ N) :
    take m c n = take m' c n := by
  unfold take
  rw [Memory.bitLength, h.1, Memory.bitsAt_congr fun k hk => h.2 k (by omega)]
  rfl

/-- A sequence of extractions depends on its first field and, past it, on what the rest depends
on. -/
theorem take_bind_congr {β : Type} {m m' : Memory} {c : Pos} {N n : Nat}
    {f f' : BitVec n × Pos → Except Error β} (h : m.AgreeFrom m' c N) (hn : n ≤ N)
    (hf : ∀ v, m.AgreeFrom m' (c.advance n) (N - n) → f (v, c.advance n) = f' (v, c.advance n)) :
    take m c n >>= f = take m' c n >>= f' := by
  rw [← take_congr h hn]
  obtain ⟨-, e⟩ | ⟨-, e⟩ := take_cases m c n
  · rw [bind_of_ok e, bind_of_ok e, hf _ (h.advance n)]
  · rw [bind_of_error e, bind_of_error e]

theorem takeHalf_congr {m m' : Memory} {c : Pos} (h : m.AgreeFrom m' c 16) :
    takeHalf m c = takeHalf m' c :=
  take_bind_congr h (by decide) fun _ h8 => take_bind_congr h8 (by decide) fun _ _ => rfl

theorem immOfWidth_congr {m m' : Memory} {c : Pos} (h : m.AgreeFrom m' c 16) (w : Width) :
    immOfWidth m c w = immOfWidth m' c w := by
  cases w with
  | byte => exact take_bind_congr h (by decide) fun _ _ => rfl
  | word => exact congrArg (· >>= _) (takeHalf_congr h)

theorem fetchRm_congr {m m' : Memory} {c : Pos} (h : m.AgreeFrom m' c 16) (mode : DirectAddrMode)
    (md : BitVec 2) (rm : Field3) : fetchRm mode m c md rm = fetchRm mode m' c md rm := by
  obtain rfl | rfl | rfl | rfl := mode_cases md
  · by_cases hd : rm = 0b110#3 ∧ mode = .architectural
    · obtain ⟨rfl, rfl⟩ := hd
      rw [fetchRm_direct, fetchRm_direct, takeHalf_congr h]
    · rw [fetchRm_bare _ _ _ _ hd, fetchRm_bare _ _ _ _ hd]
  · rw [fetchRm_disp8, fetchRm_disp8, take_congr h (by decide)]
  · rw [fetchRm_disp16, fetchRm_disp16, takeHalf_congr h]
  · rw [fetchRm_reg, fetchRm_reg]

theorem fetchRegMem_congr {m m' : Memory} {c : Pos} (h : m.AgreeFrom m' c 28)
    (mode : DirectAddrMode) : fetchRegMem mode m c = fetchRegMem mode m' c :=
  take_bind_congr h (by decide) fun _ h2 =>
    take_bind_congr h2 (by decide) fun _ h3 =>
    take_bind_congr h3 (by decide) fun _ h4 =>
    take_bind_congr h4 (by decide) fun md h6 =>
    take_bind_congr h6 (by decide) fun _ h9 =>
    take_bind_congr h9 (by decide) fun rm h12 =>
    congrArg (· >>= _) (fetchRm_congr h12 mode md rm)

theorem fetchImmReg_congr {m m' : Memory} {c : Pos} (h : m.AgreeFrom m' c 20) :
    fetchImmReg m c = fetchImmReg m' c :=
  take_bind_congr h (by decide) fun w h1 =>
    take_bind_congr h1 (by decide) fun _ h4 =>
    congrArg (· >>= _) (immOfWidth_congr h4 (Width.ofBit w))

/-- Decoding, failures included, depends on the buffer's length and 32 bits (20_memory.md R40). -/
theorem fetch_congr {m m' : Memory} {p : Pos} (h : m.AgreeFrom m' p 32) (mode : DirectAddrMode) :
    fetch mode m p = fetch mode m' p := by
  refine take_bind_congr h (by decide) fun nib h4 => ?_
  show fetchRow mode m nib (p.advance 4) = fetchRow mode m' nib (p.advance 4)
  obtain rfl | rfl | ⟨i, hi, rfl⟩ := nibble_cases nib
  · exact fetchRegMem_congr h4 mode
  · exact fetchImmReg_congr ⟨h4.1, fun k hk => h4.2 k (by omega)⟩
  · rw [fetchRow_nibbleOnly mode m _ hi, fetchRow_nibbleOnly mode m' _ hi]

/-! ### Reading a byte -/

theorem Memory.memRead_of_lt {m : Memory} {i : Nat} (h : i < m.length) :
    m.memRead i = some (m.byteAt i) := if_pos h

/-- Read after write. -/
theorem Memory.memRead_store_same {m : Memory} (h : m.wf) (i : Nat) (v : Byte) :
    (m.store i v).memRead i = some v := by
  rw [memRead_of_lt (by rw [store_length]; omega), byteAt_store h, if_pos rfl]

/-- A write leaves the other bytes of the buffer alone. -/
theorem Memory.memRead_store_other {m : Memory} (h : m.wf) {i j : Nat} (hij : j ≠ i)
    (hj : j < m.length) (v : Byte) : (m.store i v).memRead j = m.memRead j := by
  rw [memRead_of_lt hj, memRead_of_lt (by rw [store_length]; omega), byteAt_store h,
    if_neg hij.symm]

end Sys2Proof

namespace Sys2Proof.Machine

/-! ### The caller's operations -/

theorem State.busy_eq_false_iff (s : State) :
    s.busy = false ↔ s.request = none ∧ s.cursor = none := by
  simp [State.busy]

theorem State.busy_of_request {s : State} (h : s.request ≠ none) : s.busy = true := by
  simp [State.busy, Option.isSome_iff_ne_none.mpr h]

theorem post_next {r : Request} {s t : State} (h : post r s = .next t) :
    t = { s with request := some r, response := none } := by
  unfold post at h
  split at h
  · cases h
  · cases h; rfl

theorem storeByte_next {i : Nat} {v : Byte} {s t : State} (h : storeByte i v s = .next t) :
    t = { s with buf := s.buf.store i v } := by
  unfold storeByte at h
  split at h
  · cases h
  · cases h; rfl

theorem storeByte_of_idle {s : State} (h : s.busy = false) (i : Nat) (v : Byte) :
    storeByte i v s = .next { s with buf := s.buf.store i v } := by
  simp [storeByte, h]

theorem storeByte_of_busy {s : State} (h : s.busy = true) (i : Nat) (v : Byte) :
    storeByte i v s = .refused .bufferInUse := by
  simp [storeByte, h]

/-- The request that a loaded word waits with has an address of ADDR_W bits: the waiting one's, or 0
(log 11). -/
theorem requestOrFirst_addrIn_lt {s : State} (h : s.Inv) :
    s.requestOrFirst.addrIn < 2 ^ Config.addrW := by
  unfold State.requestOrFirst
  cases hr : s.request with
  | none => exact Nat.two_pow_pos _
  | some r => exact h.request_width r hr

/-! ### What the meanings and the step leave unchanged -/

/-- Where a meaning inside a transaction only ever responds, so does the whole. -/
theorem inTransaction_next {s t : State} {k : Request → Pos → Host.Outcome State Fault Refusal}
    (hk : ∀ r c, k r c = .next t → ∃ res, t = respond res s) (h : inTransaction s k = .next t) :
    ∃ res, t = respond res s := by
  obtain ⟨r, c, -, -, e⟩ | ⟨-, e⟩ := inTransaction_cases s k
  · exact hk r c (e.symm.trans h)
  · cases e.symm.trans h

theorem execMovRegMem_next {xx : BitVec 2} {d : Direction} {w : Width} {reg : Field3}
    {rm : RmOperand} {s t : State} (h : execMovRegMem xx d w reg rm s = .next t) :
    ∃ res, t = respond res s := by
  refine inTransaction_next (fun r c hk => ?_) h
  split at hk
  · cases hk
  · split at hk
    · cases hk; exact ⟨_, rfl⟩
    · cases hk; exact ⟨_, rfl⟩

theorem execMovImmReg_next {reg : Field3} {imm : Immediate} {s t : State}
    (h : execMovImmReg reg imm s = .next t) : ∃ res, t = respond res s :=
  inTransaction_next (fun _ _ hk => ⟨_, (Host.Outcome.next.inj hk).symm⟩) h

/-- A meaning that answers a next state gives a response and does nothing else. -/
theorem exec_next {i : Instr} {s t : State} (h : exec i s = .next t) : ∃ res, t = respond res s := by
  cases i with
  | movRegMem xx d w reg rm => exact execMovRegMem_next (xx := xx) h
  | movImmReg reg imm => exact execMovImmReg_next h
  | movImmMem => exact answerUnimplemented_next h
  | movAcc => exact answerUnimplemented_next h
  | _ => exact answerUnsupported_next h

/-- A step is idle or gives a response and does nothing else. -/
theorem step_next {s t : State} (h : step s = .next t) : t = s ∨ ∃ res, t = respond res s := by
  cases hr : s.request with
  | none => exact .inl (Host.Outcome.next.inj ((step_of_idle hr).symm.trans h)).symm
  | some r => exact .inr ⟨_, (Host.Outcome.next.inj ((step_eq_answerTo hr).symm.trans h)).symm⟩

/-! ### A successful decode elsewhere -/

/-- The length in a record is the instruction's, all of whose bits are read (R57, R81). -/
theorem Instr.bits_of_answer_ok {mode : DirectAddrMode} {r : Request} {i : Instr} {rec : Record}
    {next : Pos} (h : Instr.answer mode r (r.start.advance i.bits) i = .ok rec next) :
    i.bits = 8 * rec.length ∧ i.bits = 8 * (encode i).length := by
  obtain ⟨xx, d, w, reg, rm, rfl, -, rfl⟩ | ⟨reg, imm, rfl, rfl⟩ := Instr.answer_ok h <;>
    simp only [stamp_length, Pos.abs_advance, Instr.bits, encode, List.length_cons] <;> omega

/-- An instruction that succeeds for one request succeeds for every other, with the same record but
for the address. -/
theorem Instr.answer_for_other_request {mode : DirectAddrMode} {r : Request} {i : Instr}
    {rec : Record} {next : Pos} (h : Instr.answer mode r (r.start.advance i.bits) i = .ok rec next)
    (r' : Request) :
    Instr.answer mode r' (r'.start.advance i.bits) i =
      .ok { rec with address := r'.addrIn } (r'.start.advance i.bits) := by
  obtain ⟨xx, d, w, reg, rm, rfl, hd, rfl⟩ | ⟨reg, imm, rfl, rfl⟩ := Instr.answer_ok h
  · simp [Instr.answer, hd, stamp]
  · simp [Instr.answer, stamp]

/-- A request is answered by the well-formed instruction the buffer shows at its start. -/
theorem answerTo_of_holds {mode : DirectAddrMode} {m : Memory} {r : Request} {i : Instr}
    (hwf : i.wf mode = true) (hh : m.holds r.start (encodeBits i)) :
    answerTo mode m r = Instr.answer mode r (r.start.advance i.bits) i := by
  unfold answerTo
  rw [fetch_ok_iff.mpr ⟨hwf, hh, rfl⟩]

/-! ### The statements -/

/-- Settles O15: two buffers that agree for 32 bits from the start decode alike (`fetch_congr`), so
the request is answered alike. -/
theorem transactionReadsAtMost32Bits : Obligations.TransactionReadsAtMost32Bits := by
  intro s s' r hmode hr hr' hlen hbit
  have hanswer : answerTo s.directAddrMode s.buf r = answerTo s'.directAddrMode s'.buf r := by
    unfold answerTo
    rw [fetch_congr ⟨hlen, hbit⟩, hmode]
  exact ⟨_, step_eq_answerTo hr, by rw [hanswer]; exact step_eq_answerTo hr'⟩

/-- Settles O16: the record's bits are all of its instruction's encoding, so the other buffer shows
that encoding too, and decodes it (`fetch_ok_iff`). -/
theorem decodingIsTheSameAtEveryBitOffset : Obligations.DecodingIsTheSameAtEveryBitOffset := by
  intro s s' t r r' rec next hmode hr hr' ht hres hlen hbit
  obtain ⟨i, hwf, hh, hi⟩ := answerTo_ok (response_of_step hr ht hres)
  obtain ⟨hbits, hall⟩ := Instr.bits_of_answer_ok hi
  have hcount : (encodeBits i).length = 8 * rec.length := by
    rw [encodeBits_of_all_read hall, length_bitsOfBytes, ← hall, hbits]
  have hh' : s'.buf.holds r'.start (encodeBits i) :=
    Memory.holds_congr hh (by rw [hcount]; exact hlen)
      fun k hk => (hbit k (by omega)).symm
  rw [step_eq_answerTo hr', answerTo_of_holds (hmode ▸ hwf) hh', ← hmode,
    Instr.answer_for_other_request hi r', hbits]

/-- Settles O8: every meaning that answers only responds (`exec_next`). -/
theorem meaningsChangeOnlyThePorts : Obligations.MeaningsChangeOnlyThePorts := by
  intro i s t h
  obtain ⟨res, rfl⟩ := exec_next h
  exact ⟨rfl, rfl, fun _ => rfl, rfl, rfl, res, rfl⟩

/-- Settles O7: every step is idle or only responds (`step_next`). -/
theorem stepNeverWritesBufferOrConfiguration :
    Obligations.StepNeverWritesBufferOrConfiguration := by
  intro s t h
  obtain rfl | ⟨res, rfl⟩ := step_next h
  · exact ⟨rfl, rfl, fun _ => rfl⟩
  · exact ⟨rfl, rfl, fun _ => rfl⟩

/-- Settles O10: the field's bits are the stream's (`Memory.getMsbD_bitsAt`), each one's byte inside
the buffer. -/
theorem takeReadsMostSignificantFirst : Obligations.TakeReadsMostSignificantFirst := by
  rintro m c n q - - rfl
  refine ⟨fun h => take_of_lt h, fun h => ⟨_, take_of_le h, fun k hk => ?_⟩⟩
  refine ⟨_, Memory.memRead_of_lt (by omega), ?_⟩
  rw [Memory.getMsbD_bitsAt, decide_eq_true hk, Bool.true_and]
  rfl

/-- Settles O11, by what `take` can do (`take_cases`). -/
theorem takeFailsExactlyWhenShort : Obligations.TakeFailsExactlyWhenShort := by
  intro m c n e hn _
  obtain ⟨h, he⟩ | ⟨h, he⟩ := take_cases m c n
  · have hroom : ¬ 8 * m.length - c.abs < n := by simp only [Memory.bitLength] at h; omega
    simp [he, hroom]
  · have hshort : 8 * m.length - c.abs < n := by simp only [Memory.bitLength] at h; omega
    simp [he, hshort, eq_comm]

/-- Settles O13: the accepted write is the buffer's store, whose laws these are. -/
theorem callerWritesBetweenTransactions : Obligations.CallerWritesBetweenTransactions := by
  intro s i v hwf
  refine ⟨fun hr hc => ?_, fun hr => storeByte_of_busy (State.busy_of_request hr) i v⟩
  exact ⟨_, storeByte_of_idle (s.busy_eq_false_iff.mpr ⟨hr, hc⟩) i v,
    Memory.memRead_store_same hwf i v,
    fun _ hji hj => Memory.memRead_store_other hwf hji hj v, Memory.store_wf hwf i v⟩

/-- Settles O50: an operation that writes keeps the canonical form, one that presents a request gives
it an address of ADDR_W bits, and none makes a response or a cursor. -/
theorem environmentKeepsTheInvariant : Obligations.EnvironmentKeepsTheInvariant := by
  intro s hinv
  refine ⟨fun r t ha h => ?post, fun i v t h => ?store, ?reset, fun nbits w => ?load⟩
  case post =>
    obtain rfl := post_next h
    refine ⟨hinv.buf_wf, hinv.no_cursor, fun r0 hr0 => ?_, by simp⟩
    cases hr0
    exact ha
  case store =>
    obtain rfl := storeByte_next h
    exact ⟨Memory.store_wf hinv.buf_wf i v, hinv.no_cursor, hinv.request_width,
      hinv.response_legal⟩
  case reset => exact ⟨hinv.buf_wf, rfl, by simp, by simp⟩
  case load =>
    refine ⟨?_, (withFetchWord_cursor s nbits w).trans hinv.no_cursor, fun r hr => ?_, ?_⟩
    · rw [withFetchWord_buf]
      exact Memory.putBits_wf hinv.buf_wf _ _
    · rw [withFetchWord_request] at hr
      cases hr
      exact requestOrFirst_addrIn_lt hinv
    · rw [withFetchWord_response, withFetchWord_directAddrMode]
      exact hinv.response_legal

end Sys2Proof.Machine

/-! ## Proofs of the family `30_encoding.md`

The host's numbering of an encoding, the two bits of format A that no response depends on, and the
statements of the family. -/

namespace Sys2Proof

/-! ### The host's numbering of bytes -/

theorem wordOfBytes_lt (bs : List Byte) : wordOfBytes bs < 2 ^ (8 * bs.length) := by
  induction bs with
  | nil => decide
  | cons b bs ih =>
    have hpow : 2 ^ (8 * (b :: bs).length) = 256 * 2 ^ (8 * bs.length) := by
      rw [List.length_cons, Nat.mul_succ, Nat.pow_add, Nat.mul_comm]
    have hb := b.isLt
    rw [hpow, wordOfBytes]
    omega

/-- Dropping the low byte of the number drops the first byte of the list. -/
theorem wordOfBytes_cons_div (b : Byte) (bs : List Byte) (k : Nat) :
    wordOfBytes (b :: bs) / 2 ^ (8 * (k + 1)) = wordOfBytes bs / 2 ^ (8 * k) := by
  have hb := b.isLt
  rw [Nat.mul_succ, Nat.pow_add, Nat.mul_comm, ← Nat.div_div_eq_div_mul, wordOfBytes]
  congr 1
  omega

/-- Byte `k` of the number is byte `k` of the list, and 0 past its end. -/
theorem ofNat_wordOfBytes_div (bs : List Byte) (k : Nat) :
    BitVec.ofNat 8 (wordOfBytes bs / 2 ^ (8 * k)) = bs.getD k 0#8 := by
  induction bs generalizing k with
  | nil => simp [wordOfBytes]
  | cons b bs ih =>
    cases k with
    | zero => simp [wordOfBytes, BitVec.ofNat_add, BitVec.ofNat_mul]
    | succ k => rw [wordOfBytes_cons_div, ih, List.getD_cons_succ]

/-- The table's four bytes of a number that was written from at most four bytes begin with them. -/
theorem isPrefix_tableBytes_wordOfBytes {bs : List Byte} (h : bs.length ≤ 4) :
    bs <+: tableBytes (8 * bs.length) (wordOfBytes bs) := by
  have hbytes : tableBytes (8 * bs.length) (wordOfBytes bs) =
      [bs.getD 0 0#8, bs.getD 1 0#8, bs.getD 2 0#8, bs.getD 3 0#8] := by
    simp only [tableBytes, Nat.mod_eq_of_lt (wordOfBytes_lt bs), ← ofNat_wordOfBytes_div]
    simp
  rw [hbytes]
  match bs, h with
  | [], _ => exact ⟨_, rfl⟩
  | [_], _ => exact ⟨_, rfl⟩
  | [_, _], _ => exact ⟨_, rfl⟩
  | [_, _, _], _ => exact ⟨_, rfl⟩
  | [_, _, _, _], _ => exact ⟨_, rfl⟩

theorem bitsOfBytes_append (as bs : List Byte) :
    bitsOfBytes (as ++ bs) = bitsOfBytes as ++ bitsOfBytes bs := by
  induction as with
  | nil => rfl
  | cons a as ih => simp only [List.cons_append, bitsOfBytes, ih]

/-- The buffer of some bytes shows every beginning of their bits. -/
theorem Memory.holds_ofBytes_of_isPrefix {bytes : List Byte} {bs : List Bool}
    (h : bs <+: bitsOfBytes bytes) : (Memory.ofBytes bytes).holds (Pos.ofAbs 0) bs := by
  obtain ⟨rest, hrest⟩ := h
  have hlen := congrArg List.length hrest
  rw [length_bitsOfBytes, List.length_append] at hlen
  refine ⟨by simp [bitLength, ofBytes]; omega, fun k hk => ?_⟩
  rw [bit_ofBytes, ← hrest]
  simp [List.getElem?_append_left hk, hk]

/-- No encoding is longer than a table word (R44). -/
theorem encode_length_le (i : Instr) : (encode i).length ≤ 4 := by
  cases i with
  | movRegMem xx d w reg rm => exact (Laws.EncodeShape.movRegMem xx d w reg rm).1
  | movImmReg reg imm => exact (Laws.EncodeShape.movImmReg reg imm).1
  | _ => decide

theorem encodeBits_isPrefix (i : Instr) : encodeBits i <+: bitsOfBytes (encode i) :=
  ⟨_, List.take_append_drop _ _⟩

theorem decodeTableWord_of_holds {nbits w : Nat} {i : Instr}
    (hwf : i.wf Config.directAddrModeAtReset = true)
    (hh : (Memory.ofBytes (tableBytes nbits w)).holds (Pos.ofAbs 0) (encodeBits i)) :
    decodeTableWord nbits w = some i := by
  rw [decodeTableWord, fetch_ok_iff.mpr ⟨hwf, hh, rfl⟩]

/-! ### The discarded bits of format A -/

/-- The fields of format A from `w` on (R46), as the decoder reads them. -/
def fetchRegMemOperands (mode : DirectAddrMode) (m : Memory) (c : Pos) :
    Except Error ((Width × Field3 × RmOperand) × Pos) := do
  let (w, c4) ← take m c 1
  let (md, c5) ← take m c4 2
  let (reg, c6) ← take m c5 3
  let (rm, c7) ← take m c6 3
  let (opnd, c8) ← fetchRm mode m c7 md rm
  return ((Width.ofBit w, reg, opnd), c8)

/-- Format A is its discarded bits, its `d` and its operand fields, one after the other. -/
theorem fetchRegMem_eq (mode : DirectAddrMode) (m : Memory) (c : Pos) :
    fetchRegMem mode m c = (do
      let (xx, c2) ← take m c 2
      let (d, c3) ← take m c2 1
      let ((w, reg, opnd), c8) ← fetchRegMemOperands mode m c3
      return (.movRegMem xx (Direction.ofBit d) w reg opnd, c8)) := by
  simp only [fetchRegMem, fetchRegMemOperands, bind_assoc, pure_bind]

theorem fetchRegMemOperands_congr {m m' : Memory} {c : Pos} (h : m.AgreeFrom m' c 25)
    (mode : DirectAddrMode) : fetchRegMemOperands mode m c = fetchRegMemOperands mode m' c :=
  take_bind_congr h (by decide) fun _ h1 =>
    take_bind_congr h1 (by decide) fun md h3 =>
    take_bind_congr h3 (by decide) fun _ h6 =>
    take_bind_congr h6 (by decide) fun rm h9 =>
    congrArg (· >>= _) (fetchRm_congr h9 mode md rm)

/-- Where two buffers agree past the discarded bits, format A fails in both alike, or is decoded in
both to the same but for the discarded bits. -/
theorem fetchRegMem_of_agree_past_discarded {m m' : Memory} {c : Pos}
    (h : m.AgreeFrom m' (c.advance 2) 26) (mode : DirectAddrMode) :
    (∃ e, fetchRegMem mode m c = .error e ∧ fetchRegMem mode m' c = .error e) ∨
      ∃ xx xx' d w reg o c', fetchRegMem mode m c = .ok (.movRegMem xx d w reg o, c') ∧
        fetchRegMem mode m' c = .ok (.movRegMem xx' d w reg o, c') := by
  have hlen : m.bitLength = m'.bitLength := congrArg (8 * ·) h.1
  rw [fetchRegMem_eq, fetchRegMem_eq]
  by_cases hxx : m.bitLength < c.abs + 2
  · exact .inl ⟨_, bind_of_error (take_of_lt hxx), bind_of_error (take_of_lt (hlen ▸ hxx))⟩
  rw [bind_of_ok (take_of_le (Nat.le_of_not_lt hxx)),
    bind_of_ok (take_of_le (Nat.le_of_not_lt (hlen ▸ hxx)))]
  dsimp only
  rw [← take_congr h (by decide)]
  obtain ⟨-, hd⟩ | ⟨-, hd⟩ := take_cases m (c.advance 2) 1
  · rw [bind_of_ok hd, bind_of_ok hd]
    dsimp only
    rw [← fetchRegMemOperands_congr (h.advance 1) mode]
    cases hops : fetchRegMemOperands mode m ((c.advance 2).advance 1) with
    | error e => exact .inl ⟨e, rfl, rfl⟩
    | ok ops => exact .inr ⟨_, _, _, _, _, _, _, rfl, rfl⟩
  · exact .inl ⟨_, bind_of_error hd, bind_of_error hd⟩

theorem fetch_eq_fetchRegMem {mode : DirectAddrMode} {m : Memory} {p c : Pos}
    (h : take m p 4 = .ok (0b1000#4, c)) : fetch mode m p = fetchRegMem mode m c := by
  unfold fetch
  exact bind_of_ok h

end Sys2Proof

namespace Sys2Proof.Machine

/-- The two discarded bits of format A do not change the response (R54). -/
theorem answerTo_of_agree_past_discarded {m m' : Memory} {r : Request} {c1 : Pos}
    (hnib : take m r.start 4 = .ok (0b1000#4, c1)) (hfirst : m.AgreeFrom m' r.start 4)
    (hrest : m.AgreeFrom m' (r.start.advance 6) 26) (mode : DirectAddrMode) :
    answerTo mode m r = answerTo mode m' r := by
  have hnib' := (take_congr hfirst (Nat.le_refl 4)).symm.trans hnib
  obtain ⟨-, -, rfl⟩ := take_ok_iff.mp hnib
  unfold answerTo
  rw [fetch_eq_fetchRegMem hnib, fetch_eq_fetchRegMem hnib']
  rw [← Pos.advance_advance r.start 4 2] at hrest
  obtain ⟨e, he, he'⟩ | ⟨xx, xx', d, w, reg, o, c', hi, hi'⟩ :=
    fetchRegMem_of_agree_past_discarded hrest mode
  · rw [he, he']
  · rw [hi, hi']
    rfl

/-! ### The statements -/

/-- Settles O24: `fetch_ok_iff`, whose cases are the rows of the opcode map. -/
theorem fetchReadsExactlyTheEncoding : Obligations.FetchReadsExactlyTheEncoding :=
  fun _ _ _ _ _ => fetch_ok_iff

/-- Settles O25: the table's bytes of the number begin with the encoding, so their buffer shows the
bits that the decoder reads. -/
theorem encodedWordDecodesToItsInstruction : Obligations.EncodedWordDecodesToItsInstruction := by
  intro i hwf
  obtain ⟨rest, hrest⟩ := isPrefix_tableBytes_wordOfBytes (encode_length_le i)
  refine decodeTableWord_of_holds hwf (Memory.holds_ofBytes_of_isPrefix ?_)
  rw [← hrest, bitsOfBytes_append]
  exact (encodeBits_isPrefix i).trans ⟨_, rfl⟩

/-- Settles O36: the buffers agree on the nibble and past the discarded bits. -/
theorem discardedBitsDoNotMatter : Obligations.DiscardedBitsDoNotMatter := by
  intro s s' r c1 hmode hr hr' hlen hnib hbit
  have hfirst : s.buf.AgreeFrom s'.buf r.start 4 :=
    ⟨hlen, fun k hk => hbit _ (by omega) (by omega)⟩
  have hrest : s.buf.AgreeFrom s'.buf (r.start.advance 6) 26 := by
    refine ⟨hlen, fun k _ => ?_⟩
    rw [Pos.abs_advance]
    exact hbit _ (by omega) (by omega)
  have hanswer : answerTo s.directAddrMode s.buf r = answerTo s'.directAddrMode s'.buf r := by
    rw [← hmode]
    exact answerTo_of_agree_past_discarded hnib hfirst hrest s.directAddrMode
  exact ⟨_, step_eq_answerTo hr, by rw [hanswer]; exact step_eq_answerTo hr'⟩

/-- Settles O26, by running the decoder on each word. -/
theorem sampleWordsDecode : Obligations.SampleWordsDecode := by
  unfold Obligations.SampleWordsDecode
  decide

end Sys2Proof.Machine

/-! ## Proofs of the family `40_classifier.md`

Which field of the layout a decode fails at, what the nibble alone decides, and the statements of the
family. -/

namespace Sys2Proof

/-! ### Where the decoder fails -/

/-- The fields that the decoder extracts, each as its offset from the start and its width: the nibble,
the rest of format A with its displacement bytes (R46), the rest of format B with its immediate bytes
(R47). -/
def fieldLayout : List (Nat × Nat) :=
  [(0, 4), (4, 2), (6, 1), (7, 1), (8, 2), (10, 3), (13, 3), (16, 8), (24, 8), (4, 1), (5, 3), (8, 8)]

/-- The bits before offset `k` from `p` are in the buffer; at offset 0 nothing has been read yet, and
the start may lie anywhere. -/
def Memory.Reaches (m : Memory) (p : Pos) (k : Nat) : Prop := k = 0 ∨ p.abs + k ≤ m.bitLength

/-- A decode from `p` fails only at a field of the layout, the first one that does not fit (R89,
R92). -/
def FailsAtField {α : Type} (m : Memory) (p : Pos) (x : Except Error α) : Prop :=
  ∀ e, x = .error e → ∃ k n, (k, n) ∈ fieldLayout ∧ m.Reaches p k ∧
    m.bitLength < p.abs + k + n ∧ e = .insufficientInput (p.advance k) n

section FailsAtField
variable {m : Memory} {p : Pos} {k : Nat}

theorem failsAtField_ok {α : Type} (a : α) : FailsAtField m p (.ok a) := by
  rintro e ⟨⟩

/-- Extracting the next field of the layout: it fails there, or the rest goes on with the bits before
its end in the buffer. -/
theorem failsAtField_take_bind {β : Type} {n : Nat} {f : BitVec n × Pos → Except Error β}
    (hk : m.Reaches p k) (hn : (k, n) ∈ fieldLayout)
    (hf : ∀ v, m.Reaches p (k + n) → FailsAtField m p (f (v, p.advance (k + n)))) :
    FailsAtField m p (take m (p.advance k) n >>= f) := by
  obtain ⟨h, e⟩ | ⟨h, e⟩ := take_cases m (p.advance k) n <;> rw [Pos.abs_advance] at h
  · rw [bind_of_ok e, Pos.advance_advance]
    exact hf _ (.inr (by omega))
  · rw [bind_of_error e]
    rintro _ ⟨⟩
    exact ⟨k, n, hn, hk, h, rfl⟩

theorem FailsAtField.bind_ok {α β : Type} {x : Except Error α} (h : FailsAtField m p x) (f : α → β) :
    FailsAtField m p (x >>= fun a => .ok (f a)) := by
  intro e he
  obtain hx | ⟨a, -, ha⟩ := bind_error_inv he
  · exact h e hx
  · cases ha

theorem failsAtField_takeHalf (hk : m.Reaches p k) (hlo : (k, 8) ∈ fieldLayout)
    (hhi : (k + 8, 8) ∈ fieldLayout) : FailsAtField m p (takeHalf m (p.advance k)) :=
  failsAtField_take_bind hk hlo fun _ hk' =>
    failsAtField_take_bind hk' hhi fun _ _ => failsAtField_ok _

theorem failsAtField_immOfWidth (hk : m.Reaches p 8) (w : Width) :
    FailsAtField m p (immOfWidth m (p.advance 8) w) := by
  cases w with
  | byte => exact failsAtField_take_bind hk (by decide) fun _ _ => failsAtField_ok _
  | word => exact (failsAtField_takeHalf hk (by decide) (by decide)).bind_ok _

theorem failsAtField_fetchRm (hk : m.Reaches p 16) (mode : DirectAddrMode) (md : BitVec 2)
    (rm : Field3) : FailsAtField m p (fetchRm mode m (p.advance 16) md rm) := by
  have hhalf := failsAtField_takeHalf hk (by decide) (by decide)
  obtain rfl | rfl | rfl | rfl := mode_cases md
  · by_cases hd : rm = 0b110#3 ∧ mode = .architectural
    · obtain ⟨rfl, rfl⟩ := hd
      exact hhalf.bind_ok _
    · rw [fetchRm_bare mode m _ rm hd]
      exact failsAtField_ok _
  · exact failsAtField_take_bind hk (by decide) fun _ _ => failsAtField_ok _
  · exact hhalf.bind_ok _
  · exact failsAtField_ok _

theorem failsAtField_fetchRegMem (hk : m.Reaches p 4) (mode : DirectAddrMode) :
    FailsAtField m p (fetchRegMem mode m (p.advance 4)) :=
  failsAtField_take_bind hk (by decide) fun _ h6 =>
    failsAtField_take_bind h6 (by decide) fun _ h7 =>
    failsAtField_take_bind h7 (by decide) fun _ h8 =>
    failsAtField_take_bind h8 (by decide) fun md h10 =>
    failsAtField_take_bind h10 (by decide) fun _ h13 =>
    failsAtField_take_bind h13 (by decide) fun rm h16 =>
    (failsAtField_fetchRm h16 mode md rm).bind_ok _

theorem failsAtField_fetchImmReg (hk : m.Reaches p 4) :
    FailsAtField m p (fetchImmReg m (p.advance 4)) :=
  failsAtField_take_bind hk (by decide) fun w h5 =>
    failsAtField_take_bind h5 (by decide) fun _ h8 =>
    (failsAtField_immOfWidth h8 (Width.ofBit w)).bind_ok _

/-- Decoding fails only at the first field of the layout that does not fit. -/
theorem failsAtField_fetch (mode : DirectAddrMode) (m : Memory) (p : Pos) :
    FailsAtField m p (fetch mode m p) := by
  have hstart : fetch mode m p =
      take m (p.advance 0) 4 >>= fun nc => fetchRow mode m nc.1 nc.2 := by rw [p.advance_zero]; rfl
  rw [hstart]
  refine failsAtField_take_bind (.inl rfl) (by decide) fun nib h4 => ?_
  show FailsAtField m p (fetchRow mode m nib (p.advance 4))
  obtain rfl | rfl | ⟨i, hi, rfl⟩ := nibble_cases nib
  · exact failsAtField_fetchRegMem h4 mode
  · exact failsAtField_fetchImmReg h4
  · rw [fetchRow_nibbleOnly mode m _ hi]
    exact failsAtField_ok _
end FailsAtField

/-- A position is byte-aligned when the number of bits before it is. -/
theorem Pos.bitOffset_eq_zero_iff (p : Pos) : p.bitOffset = 0 ↔ p.abs % 8 = 0 := by
  rw [Fin.ext_iff, Pos.abs, Fin.val_zero]
  omega

/-- The buffer ends at a whole byte, so from a byte-aligned start the field that does not fit, while
those before it do, begins at a whole byte. -/
theorem aligned_field_of_not_fits {m : Memory} {p : Pos} {k n : Nat} (hp : p.abs % 8 = 0)
    (hmem : (k, n) ∈ fieldLayout) (hk : m.Reaches p k) (hshort : m.bitLength < p.abs + k + n) :
    (k, n) ∈ [(0, 4), (8, 2), (8, 8), (16, 8), (24, 8)] := by
  unfold Memory.Reaches Memory.bitLength at hk
  unfold Memory.bitLength at hshort
  simp only [fieldLayout, List.mem_cons, Prod.mk.injEq, List.not_mem_nil, or_false] at hmem ⊢
  omega

/-! ### What the nibble alone decides -/

/-- Of a row of which only the nibble is read, nothing after the nibble matters (R62 to R64). -/
theorem fetch_of_take_nibble {mode : DirectAddrMode} {m : Memory} {p c : Pos} {i : Instr}
    (hi : i.bits = 4) (h : take m p 4 = .ok (i.nibble, c)) : fetch mode m p = .ok (i, c) :=
  (bind_of_ok h).trans (fetchRow_nibbleOnly mode m c hi)

end Sys2Proof

namespace Sys2Proof.Machine

/-- An instruction's own response is never `InsufficientInput`. -/
theorem Instr.answer_ne_insufficientInput (mode : DirectAddrMode) (r : Request) (c : Pos) (i : Instr)
    (q : Pos) (n : Nat) : Instr.answer mode r c i ≠ .err (.insufficientInput q n) := by
  cases i with
  | movRegMem xx d w reg rm =>
    rw [Instr.answer]
    split <;> simp
  | _ => simp [Instr.answer]

/-- A request is answered `InsufficientInput` exactly when an extraction of its decode fails so
(R89). -/
theorem answerTo_insufficientInput_iff {mode : DirectAddrMode} {m : Memory} {r : Request} {q : Pos}
    {n : Nat} : answerTo mode m r = .err (.insufficientInput q n) ↔
      fetch mode m r.start = .error (.insufficientInput q n) := by
  unfold answerTo
  cases fetch mode m r.start with
  | error e => simp
  | ok ic => simp [Instr.answer_ne_insufficientInput]

/-- A request at the nibble of a row of which only the nibble is read gets that row's response. -/
theorem answerTo_of_take_nibble {mode : DirectAddrMode} {m : Memory} {r : Request} {c : Pos}
    {i : Instr} (hi : i.bits = 4) (h : take m r.start 4 = .ok (i.nibble, c)) :
    answerTo mode m r = Instr.answer mode r c i := by
  rw [answerTo, fetch_of_take_nibble hi h]

/-- Of the rows of which only the nibble is read, all but the two reserved ones answer
`UnsupportedOpcode` (R64). -/
theorem Instr.answer_of_unrecognized {i : Instr} (hi : i.bits = 4) (hmem : i.nibble ≠ 0b1100#4)
    (hacc : i.nibble ≠ 0b1010#4) (mode : DirectAddrMode) (r : Request) (c : Pos) :
    Instr.answer mode r c i = .err (.unsupportedOpcode i.nibble r.start c) := by
  cases i with
  | movRegMem xx d w reg rm => simp only [Instr.bits] at hi; omega
  | movImmReg reg imm => simp only [Instr.bits] at hi; omega
  | movImmMem => exact absurd rfl hmem
  | movAcc => exact absurd rfl hacc
  | _ => rfl

/-! ### The statements -/

/-- Settles O21: a nibble that is neither format's is that of a row of which only it is read
(`nibble_cases`), here one of the twelve that are not reserved. -/
theorem unrecognizedNibbleGivesUnsupportedOpcode :
    Obligations.UnrecognizedNibbleGivesUnsupportedOpcode := by
  intro s r nib c1 hr hnib hregMem himmReg himmMem hacc
  obtain h | h | ⟨i, hi, rfl⟩ := nibble_cases nib
  · exact absurd h hregMem
  · exact absurd h himmReg
  · rw [step_eq_answerTo hr, answerTo_of_take_nibble hi hnib,
      Instr.answer_of_unrecognized hi himmMem hacc]

/-- Settles O22: the two reserved rows are decoded from their nibbles alone. -/
theorem reservedFamiliesGiveUnimplementedVariant :
    Obligations.ReservedFamiliesGiveUnimplementedVariant := by
  intro s r c1 hr
  refine ⟨fun hnib => ?_, fun hnib => ?_⟩
  · rw [step_eq_answerTo hr, answerTo_of_take_nibble (i := .movImmMem) rfl hnib, Instr.answer]
  · rw [step_eq_answerTo hr, answerTo_of_take_nibble (i := .movAcc) rfl hnib, Instr.answer]

/-- Settles O46: the decode failed at a field of the layout (`failsAtField_fetch`), and of these only
five can be the first that a buffer of whole bytes cuts off (`aligned_field_of_not_fits`). -/
theorem alignedInputEndsAtByteBoundaries : Obligations.AlignedInputEndsAtByteBoundaries := by
  intro s t r p need hr hstart ht hres
  rw [Pos.bitOffset_eq_zero_iff] at hstart
  have hfetch := answerTo_insufficientInput_iff.mp (response_of_step hr ht hres)
  obtain ⟨k, n, hmem, hk, hshort, he⟩ := failsAtField_fetch _ _ _ _ hfetch
  obtain ⟨rfl, rfl⟩ := Error.insufficientInput.inj he
  have hfield := aligned_field_of_not_fits hstart hmem hk hshort
  simp only [List.mem_cons, Prod.mk.injEq, List.not_mem_nil, or_false] at hfield
  rw [Pos.bitOffset_eq_zero_iff, Pos.abs_advance]
  obtain ⟨rfl, rfl⟩ | ⟨rfl, rfl⟩ | ⟨rfl, rfl⟩ | ⟨rfl, rfl⟩ | ⟨rfl, rfl⟩ := hfield
  · exact ⟨by omega, .inl ⟨rfl, r.start.advance_zero⟩⟩
  · exact ⟨by omega, .inr (.inl ⟨rfl, rfl⟩)⟩
  · exact ⟨by omega, .inr (.inr ⟨rfl, .inl rfl⟩)⟩
  · exact ⟨by omega, .inr (.inr ⟨rfl, .inr (.inl rfl)⟩)⟩
  · exact ⟨by omega, .inr (.inr ⟨rfl, .inr (.inr rfl)⟩)⟩

/-- Settles O20: with fewer than four bits the nibble's extraction is the one that fails. -/
theorem shortStartGivesInsufficientInput : Obligations.ShortStartGivesInsufficientInput := by
  intro s r hr hshort
  rw [step_eq_answerTo hr, answerTo_insufficientInput_iff.mpr (fetch_of_short hshort)]

/-- Settles O19: the table's four patterns, and the classifier on each of the sixteen nibbles. -/
theorem classifierFollowsTheTable : Obligations.ClassifierFollowsTheTable :=
  ⟨rfl, by decide, by decide⟩

/-- Settles O23: each row, well formed in every configuration, completes with its response
(`exec_eq_answer`). -/
theorem nibbleRowsCompleteWithTheirError : Obligations.NibbleRowsCompleteWithTheirError := by
  intro s r c hr hc
  have hexec := fun (i : Instr) (hwf : i.wf s.directAddrMode = true) => exec_eq_answer hr hc hwf
  exact ⟨hexec .movImmMem rfl, hexec .movAcc rfl, hexec .unrecognized0000 rfl,
    hexec .unrecognized0001 rfl, hexec .unrecognized0010 rfl, hexec .unrecognized0011 rfl,
    hexec .unrecognized0100 rfl, hexec .unrecognized0101 rfl, hexec .unrecognized0110 rfl,
    hexec .unrecognized0111 rfl, hexec .unrecognized1001 rfl, hexec .unrecognized1101 rfl,
    hexec .unrecognized1110 rfl, hexec .unrecognized1111 rfl⟩

end Sys2Proof.Machine

/-! ## Proofs of the family `41_addressing.md`

What a format-A request is answered once its two field bytes are in the buffer: everything left is the
addressing decoder's, and the statements of the family are its cases. -/

namespace Sys2Proof

/-! ### The two field bytes of format A -/

/-- The buffer shows format A's two field bytes exactly when it shows each field (R46). -/
theorem Memory.holds_regMem_bytes (m : Memory) (p : Pos) (xx : BitVec 2) (d : Direction) (w : Width)
    (md : BitVec 2) (reg rm : Field3) :
    m.holds p (bitsOfBytes
        [(0b1000#4 ++ xx ++ d.bit ++ w.bit : BitVec 8), (md ++ reg ++ rm : BitVec 8)]) ↔
      p.abs + 16 ≤ m.bitLength ∧
      (m.bitsAt p.abs 4 = 0b1000#4 ∧ m.bitsAt (p.abs + 4) 2 = xx ∧
        m.bitsAt (p.abs + 6) 1 = d.bit ∧ m.bitsAt (p.abs + 7) 1 = w.bit) ∧
      m.bitsAt (p.abs + 8) 2 = md ∧ m.bitsAt (p.abs + 10) 3 = reg ∧
        m.bitsAt (p.abs + 13) 3 = rm := by
  rw [holds_bytes_cons, holds_bytes_cons, bitsAt_regMem_first_iff, bitsAt_regMem_second_iff,
    bitsOfBytes, holds_nil, Pos.abs_advance, Pos.abs_advance, Pos.abs_advance]
  constructor
  · rintro ⟨⟨-, hfirst⟩, ⟨h16, hsecond⟩, -⟩
    exact ⟨h16, hfirst, hsecond⟩
  · rintro ⟨h16, hfirst, hsecond⟩
    exact ⟨⟨by omega, hfirst⟩, ⟨h16, hsecond⟩, h16⟩

/-- With format A's two field bytes in the buffer, the decode is the addressing decoder's after
them. -/
theorem fetch_of_regMem_bytes {m : Memory} {p : Pos} {xx : BitVec 2} {d : Direction} {w : Width}
    {md : BitVec 2} {reg rm : Field3}
    (h : m.holds p (bitsOfBytes
      [(0b1000#4 ++ xx ++ d.bit ++ w.bit : BitVec 8), (md ++ reg ++ rm : BitVec 8)]))
    (mode : DirectAddrMode) :
    fetch mode m p = fetchRm mode m (p.advance 16) md rm >>= fun oc =>
      .ok (.movRegMem xx d w reg oc.1, oc.2) := by
  obtain ⟨h16, ⟨hnib, hxx, hd, hw⟩, hmd, hreg, hrm⟩ := (m.holds_regMem_bytes p _ _ _ _ _ _).mp h
  have field : ∀ {k n : Nat} {v : BitVec n}, k + n ≤ 16 → m.bitsAt (p.abs + k) n = v →
      take m (p.advance k) n = .ok (v, p.advance (k + n)) := fun hk hv =>
    take_ok_iff.mpr ⟨by rw [Pos.abs_advance]; omega, by rw [Pos.abs_advance]; exact hv,
      (Pos.advance_advance ..).symm⟩
  rw [fetch_eq_fetchRegMem (take_ok_iff.mpr ⟨by omega, hnib, rfl⟩)]
  unfold fetchRegMem
  refine (bind_of_ok (field (by decide) hxx)).trans <|
    (bind_of_ok (field (by decide) hd)).trans <|
    (bind_of_ok (field (by decide) hw)).trans <|
    (bind_of_ok (field (by decide) hmd)).trans <|
    (bind_of_ok (field (by decide) hreg)).trans <|
    (bind_of_ok (field (by decide) hrm)).trans ?_
  simp only [Direction.ofBit_bit, Width.ofBit_bit]
  rfl

/-! ### The two-byte read -/

theorem takeHalf_of_takes {m : Memory} {c c1 c2 : Pos} {lo hi : Byte}
    (hlo : take m c 8 = .ok (lo, c1)) (hhi : take m c1 8 = .ok (hi, c2)) :
    takeHalf m c = .ok (hi ++ lo, c2) := by
  rw [takeHalf, bind_of_ok hlo]
  dsimp only
  rw [bind_of_ok hhi]
  rfl

theorem takeHalf_of_no_byte {m : Memory} {c : Pos} (h : m.bitLength < c.abs + 8) :
    takeHalf m c = .error (.insufficientInput c 8) :=
  bind_of_error (take_of_lt h)

theorem takeHalf_of_one_byte {m : Memory} {c : Pos} (h8 : c.abs + 8 ≤ m.bitLength)
    (h16 : m.bitLength < c.abs + 16) :
    takeHalf m c = .error (.insufficientInput (c.advance 8) 8) :=
  (bind_of_ok (take_of_le h8)).trans
    (bind_of_error (take_of_lt (by rw [Pos.abs_advance]; omega)))

/-! ### Roles and the declined form -/

theorem Direction.dst_eq_ite (d : Direction) (regLoc rmLoc : Location) :
    d.dst regLoc rmLoc = if d = .toReg then regLoc else rmLoc := by
  cases d <;> rfl

theorem Direction.src_eq_ite (d : Direction) (regLoc rmLoc : Location) :
    d.src regLoc rmLoc = if d = .toReg then rmLoc else regLoc := by
  cases d <;> rfl

/-- Only REFUSE declines a form, and only mode 00 with rm 110 (R71). -/
theorem RmOperand.declined_eq_false {mode : DirectAddrMode} {o : RmOperand}
    (h : mode ≠ .refuse ∨ o ≠ .bare 0b110#3) : o.declined mode = false := by
  obtain h | h := h <;> simp [declined, h]

end Sys2Proof

namespace Sys2Proof.Machine

/-! ### The answer to a format-A request -/

section RegMemBytes
variable {s : State} {r : Request} {xx : BitVec 2} {d : Direction} {w : Width} {md : BitVec 2}
  {reg rm : Field3}
variable (hr : s.request = some r)
  (hh : s.buf.holds r.start (bitsOfBytes
    [(0b1000#4 ++ xx ++ d.bit ++ w.bit : BitVec 8), (md ++ reg ++ rm : BitVec 8)]))
include hr hh

/-- Where the addressing decoder answers an operand form, the step answers the decoded move. -/
theorem step_of_regMem_operand {o : RmOperand} {c : Pos}
    (ho : fetchRm s.directAddrMode s.buf (r.start.advance 16) md rm = .ok (o, c)) :
    step s = .next (respond (Instr.answer s.directAddrMode r c (.movRegMem xx d w reg o)) s) := by
  rw [step_eq_answerTo hr, answerTo, fetch_of_regMem_bytes hh, bind_of_ok ho]

/-- Where the addressing decoder fails, the step answers its error. -/
theorem step_of_regMem_error {e : Error}
    (he : fetchRm s.directAddrMode s.buf (r.start.advance 16) md rm = .error e) :
    step s = .next (respond (.err e) s) := by
  rw [step_eq_answerTo hr, answerTo, fetch_of_regMem_bytes hh, bind_of_error he]

/-- Where the addressing decoder answers an operand form that is not declined, `n` bits on, the step
answers the record of the form's location and `reg`, in the roles `d` gives (R77, R78, R81). -/
theorem step_of_regMem_location {o : RmOperand} {n : Nat}
    (ho : fetchRm s.directAddrMode s.buf (r.start.advance 16) md rm = .ok (o, r.start.advance n))
    (hd : o.declined s.directAddrMode = false) :
    step s = .next (respond (.ok
      { address := r.addrIn, length := n / 8, kind := .movRegMemToRegMem
        dst := if d = .toReg then .reg ⟨reg, w⟩ else o.location w
        src := .loc (if d = .toReg then o.location w else .reg ⟨reg, w⟩) }
      (r.start.advance n)) s) := by
  have hlength : ((r.start.advance n).abs - r.start.abs) / 8 = n / 8 := by
    rw [Pos.abs_advance, Nat.add_sub_cancel_left]
  rw [step_of_regMem_operand hr hh ho, Instr.answer, if_neg (by simp [hd]), stamp, hlength,
    Direction.dst_eq_ite, Direction.src_eq_ite]

/-- A form with a 16-bit literal `o` after the field bytes: with both bytes, the 4-byte record of its
location; otherwise the error of the first byte that is missing (R70, R71). -/
theorem step_of_regMem_half {o : Half → RmOperand}
    (ho : fetchRm s.directAddrMode s.buf (r.start.advance 16) md rm =
      takeHalf s.buf (r.start.advance 16) >>= fun vc => .ok (o vc.1, vc.2))
    (hd : ∀ v, (o v).declined s.directAddrMode = false) :
    (∀ (lo hi : Byte) (c : Pos), take s.buf (r.start.advance 16) 8 = .ok (lo, r.start.advance 24) →
      take s.buf (r.start.advance 24) 8 = .ok (hi, c) →
      step s = .next (respond (.ok
        { address := r.addrIn, length := 4, kind := .movRegMemToRegMem
          dst := if d = .toReg then .reg ⟨reg, w⟩ else (o (hi ++ lo)).location w
          src := .loc (if d = .toReg then (o (hi ++ lo)).location w else .reg ⟨reg, w⟩) }
        (r.start.advance 32)) s)) ∧
      (8 * s.buf.length < r.start.abs + 24 →
        step s = .next (respond (.err (.insufficientInput (r.start.advance 16) 8)) s)) ∧
      (r.start.abs + 24 ≤ 8 * s.buf.length → 8 * s.buf.length < r.start.abs + 32 →
        step s = .next (respond (.err (.insufficientInput (r.start.advance 24) 8)) s)) := by
  refine ⟨fun lo hi c hlo hhi => ?both, fun h24 => ?none, fun h24 h32 => ?one⟩
  case both =>
    obtain ⟨-, -, rfl⟩ := take_ok_iff.mp hhi
    rw [Pos.advance_advance] at hhi
    exact step_of_regMem_location hr hh (ho.trans (bind_of_ok (takeHalf_of_takes hlo hhi))) (hd _)
  case none =>
    refine step_of_regMem_error hr hh (ho.trans (bind_of_error (takeHalf_of_no_byte ?_)))
    rwa [Pos.abs_advance]
  case one =>
    have hone := takeHalf_of_one_byte (m := s.buf) (c := r.start.advance 16)
      (by rwa [Pos.abs_advance]) (by rwa [Pos.abs_advance])
    rw [Pos.advance_advance] at hone
    exact step_of_regMem_error hr hh (ho.trans (bind_of_error hone))
end RegMemBytes

/-! ### The statements -/

/-- Settles O31: mod 11 reads nothing more and names a register. -/
theorem registerDirectMoveFromBits : Obligations.RegisterDirectMoveFromBits := by
  intro s r xx d w reg rm hr hh
  exact step_of_regMem_location hr hh (fetchRm_reg _ _ _ _)
    (RmOperand.declined_eq_false (.inr nofun))

/-- Settles O32: under either premise mod 00 reads nothing more, and the form is not declined. -/
theorem noDisplacementMoveFromBits : Obligations.NoDisplacementMoveFromBits := by
  intro s r xx d w reg rm hr hform hh
  obtain hrm | href := hform
  · exact step_of_regMem_location hr hh (fetchRm_bare _ _ _ _ fun hdirect => hrm hdirect.1)
      (RmOperand.declined_eq_false (.inr (by simpa using hrm)))
  · exact step_of_regMem_location hr hh (fetchRm_bare _ _ _ _ (by simp [href]))
      (RmOperand.declined_eq_false (.inl (by simp [href])))

/-- Settles O33: mod 01 reads one byte more, whatever the configuration, `rm` and the byte are. -/
theorem byteDisplacementMoveFromBits : Obligations.ByteDisplacementMoveFromBits := by
  intro s r xx d w reg rm hr hh
  refine ⟨fun v c hv => ?present, fun h24 => ?missing⟩
  case present =>
    obtain ⟨-, -, rfl⟩ := take_ok_iff.mp hv
    rw [Pos.advance_advance] at hv
    exact step_of_regMem_location hr hh ((fetchRm_disp8 _ _ _ _).trans (bind_of_ok hv))
      (RmOperand.declined_eq_false (.inr nofun))
  case missing =>
    refine step_of_regMem_error hr hh
      ((fetchRm_disp8 _ _ _ _).trans (bind_of_error (take_of_lt ?_)))
    rwa [Pos.abs_advance]

/-- Settles O34: mod 10 reads two bytes more (`step_of_regMem_half`). -/
theorem wordDisplacementMoveFromBits : Obligations.WordDisplacementMoveFromBits := by
  intro s r xx d w reg rm hr hh
  exact step_of_regMem_half hr hh (fetchRm_disp16 _ _ _ _)
    fun _ => RmOperand.declined_eq_false (.inr nofun)

/-- Settles O35: mod 00 with rm 110 is the bare form under REFERENCE, the declined one under REFUSE,
and a form with two bytes more under ARCHITECTURAL. -/
theorem directAddressCaseUnderEachMode : Obligations.DirectAddressCaseUnderEachMode := by
  intro s r xx d w reg hr hh
  refine ⟨fun hmode => ?reference, fun hmode => ?refuse, fun hmode => ?architectural⟩
  case reference => exact noDisplacementMoveFromBits s r xx d w reg 0b110#3 hr (.inr hmode) hh
  case refuse =>
    rw [step_of_regMem_operand hr hh (fetchRm_bare _ _ _ _ (by simp [hmode])), hmode]
    rfl
  case architectural =>
    have ho := fetchRm_direct s.buf (r.start.advance 16)
    rw [← hmode] at ho
    exact step_of_regMem_half (o := .direct) hr hh ho
      fun _ => RmOperand.declined_eq_false (.inr nofun)

end Sys2Proof.Machine

/-! ## Proofs of the family `42_immediate.md`

The two literals are the one-byte and the two-byte read with a tag, so they fail where those fail. -/

namespace Sys2Proof

/-- The composition of R74 in numbers: `value = low + (high << 8)`. -/
theorem toNat_high_append_low (lo hi : Byte) :
    (hi ++ lo : Half).toNat = lo.toNat + hi.toNat * 256 := by
  have hor : hi.toNat <<< 8 + lo.toNat = hi.toNat <<< 8 ||| lo.toNat :=
    Nat.shiftLeft_add_eq_or_of_lt lo.isLt hi.toNat
  rw [BitVec.toNat_append, ← hor, Nat.shiftLeft_eq, Nat.add_comm]

theorem imm8_of_take {m : Memory} {c c1 : Pos} {v : Byte} (h : take m c 8 = .ok (v, c1)) :
    imm8 m c = .ok (.byte v, c1) :=
  bind_of_ok h

theorem imm8_of_error {m : Memory} {c : Pos} {e : Error} (h : take m c 8 = .error e) :
    imm8 m c = .error e :=
  bind_of_error h

theorem imm16_of_takeHalf {m : Memory} {c c1 : Pos} {v : Half} (h : takeHalf m c = .ok (v, c1)) :
    imm16 m c = .ok (.word v, c1) :=
  bind_of_ok h

theorem imm16_of_error {m : Memory} {c : Pos} {e : Error} (h : takeHalf m c = .error e) :
    imm16 m c = .error e :=
  bind_of_error h

end Sys2Proof

namespace Sys2Proof.Machine

/-- Settles O17: by how many of the two bytes are left, `imm16` is the two-byte read with the `Word`
tag. -/
theorem sixteenBitLiteralIsLittleEndian : Obligations.SixteenBitLiteralIsLittleEndian := by
  intro m c
  refine ⟨fun h16 => ?both, fun h8 h16 => ?one, fun h8 => ?none⟩
  case both =>
    have hlo : take m c 8 = .ok (m.bitsAt c.abs 8, c.advance 8) :=
      take_of_le (by rw [Memory.bitLength]; omega)
    have hhi : take m (c.advance 8) 8 = .ok (m.bitsAt (c.advance 8).abs 8, c.advance 16) :=
      take_ok_iff.mpr ⟨by rwa [Pos.abs_advance], rfl, (Pos.advance_advance c 8 8).symm⟩
    exact ⟨_, _, _, hlo, hhi, imm16_of_takeHalf (takeHalf_of_takes hlo hhi),
      toNat_high_append_low _ _⟩
  case one => exact imm16_of_error (takeHalf_of_one_byte h8 h16)
  case none => exact imm16_of_error (takeHalf_of_no_byte h8)

/-- Settles O18: `imm8` is one extraction with the `Byte` tag; the selection is `immOfWidth`'s two
cases. -/
theorem eightBitLiteralAndItsSelection : Obligations.EightBitLiteralAndItsSelection :=
  ⟨fun _ _ _ _ h => imm8_of_take h, fun _ _ h => imm8_of_error (take_of_lt h),
    fun _ _ => ⟨rfl, rfl⟩⟩

end Sys2Proof.Machine

/-! ## Proofs of the family `43_assembler.md`

The spec's pseudocode and the step answer the same, the direction bit and the two collapses, the
fields at which a format is cut off, the length of a record, and the statements of the family. -/

namespace Sys2Proof

/-! ### The pseudocode's addressing decoder -/

/-- A result as the outcome of the pseudocode's body: a record with its next position, or the raised
error (R76). -/
def Result.outcome : Result → Except Error (Record × Pos)
  | .ok rec next => .ok (rec, next)
  | .err e => .error e

theorem decode_eq_of_assemble {mode : DirectAddrMode} {m : Memory} {c0 : Pos} {addrIn : Nat}
    {res : Result} (h : assemble mode m c0 addrIn = res.outcome) :
    decode mode m c0 addrIn = res := by
  rw [decode, h]
  cases res <;> rfl

/-- The location of an operand form and the position after it, or the error that REFUSE raises for
the form it declines (R71). -/
def locate (mode : DirectAddrMode) (c0 : Pos) (w : Width) (oc : RmOperand × Pos) :
    Except Error (Location × Pos) :=
  if oc.1.declined mode then .error (.unimplementedVariant .regMemMove 0b1000#4 c0 oc.2)
  else .ok (oc.1.location w, oc.2)

section Locate
variable {mode : DirectAddrMode} {c0 : Pos} {w : Width}

theorem locate_of_declined {o : RmOperand} {c : Pos} (h : o.declined mode = true) :
    locate mode c0 w (o, c) = .error (.unimplementedVariant .regMemMove 0b1000#4 c0 c) :=
  if_pos h

theorem locate_of_not_declined {o : RmOperand} {c : Pos} (h : o.declined mode = false) :
    locate mode c0 w (o, c) = .ok (o.location w, c) :=
  if_neg (by simp [h])

/-- Locating a form after its literal has been read is answering the literal's location. -/
theorem bind_locate {α : Type} (x : Except Error (α × Pos)) (o : α → RmOperand)
    (h : ∀ v, o v ≠ .bare 0b110#3) :
    ((x >>= fun vc => .ok (o vc.1, vc.2)) >>= locate mode c0 w) =
      x >>= fun vc => .ok ((o vc.1).location w, vc.2) := by
  rw [bind_assoc]
  exact bind_congr fun vc =>
    locate_of_not_declined (RmOperand.declined_eq_false (.inr (h vc.1)))
end Locate

/-- The pseudocode's addressing decoder reads `rm` and locates the operand form that the decoder
reads (R66 to R71). -/
theorem addrDecode_eq_locate_fetchRm (mode : DirectAddrMode) (m : Memory) (c0 c : Pos)
    (md : BitVec 2) (w : Width) :
    addrDecode mode m c0 c md w =
      take m c 3 >>= fun rc => fetchRm mode m rc.2 md rc.1 >>= locate mode c0 w := by
  refine bind_congr fun ⟨rm, c1⟩ => ?_
  obtain rfl | rfl | rfl | rfl := mode_cases md
  · by_cases hrm : rm = 0b110#3
    · subst hrm
      cases mode with
      | reference => rfl
      | architectural =>
        exact (bind_assoc (takeHalf m c1) _ _).trans (bind_locate _ .direct nofun).symm
      | refuse => rfl
    · have hd : (RmOperand.bare rm).declined mode = false :=
        RmOperand.declined_eq_false (.inr (by simpa using hrm))
      rw [fetchRm_bare _ _ _ _ fun h => hrm h.1]
      exact (if_pos hrm).trans (locate_of_not_declined hd).symm
  · exact (bind_assoc (take m c1 8) _ _).trans (bind_locate _ (.disp8 rm) nofun).symm
  · exact (bind_assoc (takeHalf m c1) _ _).trans (bind_locate _ (.disp16 rm) nofun).symm
  · have hd : (RmOperand.reg rm).declined mode = false :=
      RmOperand.declined_eq_false (.inr nofun)
    exact (locate_of_not_declined hd).symm

/-! ### The direction bit of format A -/

/-- Where a stream bit differs, so does the direction it spells. -/
theorem direction_ne_of_bit_ne {m m' : Memory} {q : Nat} (h : m.bit q ≠ m'.bit q) :
    Direction.ofBit (m.bitsAt q 1) ≠ Direction.ofBit (m'.bitsAt q 1) := by
  intro hd
  have hbits : m.bitsAt q 1 = m'.bitsAt q 1 := by simpa using congrArg Direction.bit hd
  have hfirst := congrArg (·.getMsbD 0) hbits
  simp only [Memory.getMsbD_bitsAt] at hfirst
  exact h (by simpa using hfirst)

/-- Opposite directions exchange the operand roles (R78). -/
theorem Direction.roles_of_ne {d d' : Direction} (h : d ≠ d') (regLoc rmLoc : Location) :
    d'.dst regLoc rmLoc = d.src regLoc rmLoc ∧ d'.src regLoc rmLoc = d.dst regLoc rmLoc :=
  match d, d', h with
  | .toRm, .toReg, _ => ⟨rfl, rfl⟩
  | .toReg, .toRm, _ => ⟨rfl, rfl⟩

/-- Where two buffers agree but for the direction bit, format A fails in both alike, or is decoded
in both to the same but for the direction. -/
theorem fetchRegMem_of_agree_but_direction {m m' : Memory} {c : Pos} (hxx : m.AgreeFrom m' c 2)
    (hrest : m.AgreeFrom m' (c.advance 3) 25) (mode : DirectAddrMode) :
    (∃ e, fetchRegMem mode m c = .error e ∧ fetchRegMem mode m' c = .error e) ∨
      ∃ xx w reg o c',
        fetchRegMem mode m c =
          .ok (.movRegMem xx (Direction.ofBit (m.bitsAt (c.abs + 2) 1)) w reg o, c') ∧
        fetchRegMem mode m' c =
          .ok (.movRegMem xx (Direction.ofBit (m'.bitsAt (c.abs + 2) 1)) w reg o, c') := by
  have hlen : m.bitLength = m'.bitLength := congrArg (8 * ·) hxx.1
  rw [fetchRegMem_eq, fetchRegMem_eq, ← take_congr hxx (Nat.le_refl 2)]
  obtain ⟨-, h2⟩ | ⟨-, h2⟩ := take_cases m c 2
  case inr => exact .inl ⟨_, bind_of_error h2, bind_of_error h2⟩
  rw [bind_of_ok h2, bind_of_ok h2]
  dsimp only
  by_cases hd : m.bitLength < (c.advance 2).abs + 1
  · exact .inl ⟨_, bind_of_error (take_of_lt hd), bind_of_error (take_of_lt (hlen ▸ hd))⟩
  rw [bind_of_ok (take_of_le (Nat.le_of_not_lt hd)),
    bind_of_ok (take_of_le (Nat.le_of_not_lt (hlen ▸ hd)))]
  dsimp only
  rw [Pos.advance_advance, Pos.abs_advance, ← fetchRegMemOperands_congr hrest mode]
  cases fetchRegMemOperands mode m (c.advance 3) with
  | error e => exact .inl ⟨e, rfl, rfl⟩
  | ok ops => exact .inr ⟨_, _, _, _, _, rfl, rfl⟩

/-! ### The two collapses -/

/-- The operand form that a location names: nothing is canonicalised (R72). -/
def Location.operand : Location → Option RmOperand
  | .reg x => some (.reg x.index)
  | .mem (.bare a) => some (.bare (BitVec.ofNat 3 a.tag))
  | .mem (.withOffset a (.byte d)) => some (.disp8 (BitVec.ofNat 3 a.tag) d)
  | .mem (.withOffset a (.word d)) => some (.disp16 (BitVec.ofNat 3 a.tag) d)
  | .mem (.direct (.word a)) => some (.direct a)
  | .mem (.direct (.byte _)) => none

theorem RmOperand.operand_location (w : Width) (o : RmOperand) :
    (o.location w).operand = some o := by
  cases o <;> simp [location, Location.operand, Address.ofRm_tag]

/-- Whatever the widths are, equal locations come from one operand form. -/
theorem RmOperand.eq_of_location_eq {w w' : Width} {o o' : RmOperand}
    (h : o.location w = o'.location w') : o = o' := by
  have hsome := congrArg Location.operand h
  rwa [operand_location, operand_location, Option.some.injEq] at hsome

/-- An operand form that names a register is that register's, of the instruction's width. -/
theorem RmOperand.eq_reg_of_location {w w' : Width} {o : RmOperand} {x : Field3}
    (h : o.location w = .reg ⟨x, w'⟩) : o = .reg x ∧ w = w' := by
  obtain rfl := eq_of_location_eq (show o.location w = (RmOperand.reg x).location w' from h)
  simpa [location] using h

/-- Two format-A moves with the same operands in the same roles have the same fields, or opposite
directions and the two registers exchanged (R87). -/
theorem regMem_fields_of_roles_eq {d d' : Direction} {w w' : Width} {reg reg' : Field3}
    {o o' : RmOperand}
    (hdst : d.dst (.reg ⟨reg, w⟩) (o.location w) = d'.dst (.reg ⟨reg', w'⟩) (o'.location w'))
    (hsrc : d.src (.reg ⟨reg, w⟩) (o.location w) = d'.src (.reg ⟨reg', w'⟩) (o'.location w')) :
    w = w' ∧ ((d = d' ∧ reg = reg' ∧ o = o') ∨ (d ≠ d' ∧ o = .reg reg' ∧ o' = .reg reg)) := by
  by_cases hd : d = d'
  · subst hd
    obtain ⟨hreg, hloc⟩ : Location.reg ⟨reg, w⟩ = .reg ⟨reg', w'⟩ ∧
        o.location w = o'.location w' := by
      cases d with
      | toRm => exact ⟨hsrc, hdst⟩
      | toReg => exact ⟨hdst, hsrc⟩
    cases hreg
    exact ⟨rfl, .inl ⟨rfl, rfl, RmOperand.eq_of_location_eq hloc⟩⟩
  · obtain ⟨hdst', hsrc'⟩ := Direction.roles_of_ne hd (.reg ⟨reg', w'⟩) (o'.location w')
    rw [hdst'] at hdst
    rw [hsrc'] at hsrc
    obtain ⟨hreg, hloc⟩ : Location.reg ⟨reg, w⟩ = o'.location w' ∧
        o.location w = .reg ⟨reg', w'⟩ := by
      cases d with
      | toRm => exact ⟨hsrc, hdst⟩
      | toReg => exact ⟨hdst, hsrc⟩
    obtain ⟨ho', -⟩ := RmOperand.eq_reg_of_location hreg.symm
    obtain ⟨ho, hw⟩ := RmOperand.eq_reg_of_location hloc
    exact ⟨hw, .inr ⟨hd, ho, ho'⟩⟩

/-! ### A format cut off in its fields -/

/-- A computation fails at one of these fields, each an offset from `p` and a width: the one that
begins inside the buffer and does not fit. -/
def FailsAtOneOf {α : Type} (fields : List (Nat × Nat)) (m : Memory) (p : Pos)
    (x : Except Error α) : Prop :=
  ∃ off need, (off, need) ∈ fields ∧ p.abs + off ≤ m.bitLength ∧
    m.bitLength < p.abs + off + need ∧ x = .error (.insufficientInput (p.advance off) need)

/-- Extracting a field that begins inside the buffer: it is the one that does not fit, or the rest
begins inside the buffer too. -/
theorem failsAtOneOf_take_bind {β : Type} {fields : List (Nat × Nat)} {m : Memory} {p : Pos}
    {k n : Nat} {f : BitVec n × Pos → Except Error β} (hk : p.abs + k ≤ m.bitLength)
    (hmem : (k, n) ∈ fields)
    (hf : ∀ v, p.abs + (k + n) ≤ m.bitLength →
      FailsAtOneOf fields m p (f (v, p.advance (k + n)))) :
    FailsAtOneOf fields m p (take m (p.advance k) n >>= f) := by
  obtain ⟨h, e⟩ | ⟨h, e⟩ := take_cases m (p.advance k) n <;> rw [Pos.abs_advance] at h
  · rw [bind_of_ok e, Pos.advance_advance]
    exact hf _ (by omega)
  · exact ⟨k, n, hmem, hk, h, bind_of_error e⟩

theorem failsAtOneOf_fetchRegMem {m : Memory} {p : Pos} (h4 : p.abs + 4 ≤ m.bitLength)
    (hshort : m.bitLength < p.abs + 16) (mode : DirectAddrMode) :
    FailsAtOneOf [(4, 2), (6, 1), (7, 1), (8, 2), (10, 3), (13, 3)] m p
      (fetchRegMem mode m (p.advance 4)) :=
  failsAtOneOf_take_bind h4 (by decide) fun _ h6 =>
    failsAtOneOf_take_bind h6 (by decide) fun _ h7 =>
    failsAtOneOf_take_bind h7 (by decide) fun _ h8 =>
    failsAtOneOf_take_bind h8 (by decide) fun _ h10 =>
    failsAtOneOf_take_bind h10 (by decide) fun _ h13 =>
    failsAtOneOf_take_bind h13 (by decide) fun _ h16 =>
    absurd h16 (Nat.not_le_of_lt hshort)

theorem failsAtOneOf_fetchImmReg {m : Memory} {p : Pos} (h4 : p.abs + 4 ≤ m.bitLength)
    (hshort : m.bitLength < p.abs + 8) :
    FailsAtOneOf [(4, 1), (5, 3)] m p (fetchImmReg m (p.advance 4)) :=
  failsAtOneOf_take_bind h4 (by decide) fun _ h5 =>
    failsAtOneOf_take_bind h5 (by decide) fun _ h8 =>
    absurd h8 (Nat.not_le_of_lt hshort)

/-! ### Format B's first byte -/

theorem fetch_eq_fetchImmReg {mode : DirectAddrMode} {m : Memory} {p c : Pos}
    (h : take m p 4 = .ok (0b1011#4, c)) : fetch mode m p = fetchImmReg m c := by
  unfold fetch
  exact bind_of_ok h

/-- A field that the buffer shows `k` bits on is what is extracted there. -/
theorem take_advance_of_bitsAt {m : Memory} {p : Pos} {k n : Nat} {v : BitVec n}
    (hlen : p.abs + (k + n) ≤ m.bitLength) (hv : m.bitsAt (p.abs + k) n = v) :
    take m (p.advance k) n = .ok (v, p.advance (k + n)) := by
  refine take_ok_iff.mpr ⟨?_, ?_, (Pos.advance_advance p k n).symm⟩
  · rwa [Pos.abs_advance, Nat.add_assoc]
  · rwa [Pos.abs_advance]

/-- With format B's first byte in the buffer, the decode is the immediate decoder's after it. -/
theorem fetch_of_immReg_byte {m : Memory} {p : Pos} {w : Width} {reg : Field3}
    (h : m.holds p (bitsOfBytes [(0b1011#4 ++ w.bit ++ reg : BitVec 8)])) (mode : DirectAddrMode) :
    fetch mode m p = immOfWidth m (p.advance 8) w >>= fun ic =>
      .ok (.movImmReg reg ic.1, ic.2) := by
  obtain ⟨h8, hbyte⟩ := (m.holds_byte p _).mp h
  obtain ⟨hnib, hw, hreg⟩ := (m.bitsAt_immReg_first_iff p.abs _ _ _).mp hbyte
  rw [fetch_eq_fetchImmReg (take_ok_iff.mpr ⟨by omega, hnib, rfl⟩)]
  unfold fetchImmReg
  refine (bind_of_ok (take_advance_of_bitsAt (by omega) hw)).trans <|
    (bind_of_ok (take_advance_of_bitsAt (by omega) hreg)).trans ?_
  dsimp only
  rw [Width.ofBit_bit]
  rfl

/-! ### Whole bytes -/

theorem Pos.bitOffset_advance_bytes (p : Pos) (n : Nat) :
    (p.advance (8 * n)).bitOffset = p.bitOffset := by
  have := p.bitOffset.isLt
  simp only [advance, ofAbs, abs, Fin.ext_iff]
  omega

end Sys2Proof

namespace Sys2Proof.Machine

/-! ### The pseudocode's answer -/

theorem outcome_answerTo (mode : DirectAddrMode) (m : Memory) (r : Request) :
    (answerTo mode m r).outcome =
      fetch mode m r.start >>= fun ic => (Instr.answer mode r ic.2 ic.1).outcome := by
  unfold answerTo
  cases fetch mode m r.start <;> rfl

/-- The pseudocode of format A is decoding a format-A instruction and answering it (R60, R77):
with the form declined, the error; otherwise the record in the roles of either direction. -/
theorem assembleRegMem_eq_answer (mode : DirectAddrMode) (m : Memory) (r : Request) (c : Pos) :
    assembleRegMem mode m r.start r.addrIn c =
      fetchRegMem mode m c >>= fun ic => (Instr.answer mode r ic.2 ic.1).outcome := by
  simp only [assembleRegMem, fetchRegMem, addrDecode_eq_locate_fetchRm, bind_assoc, pure_bind]
  refine bind_congr fun ⟨xx, c2⟩ => bind_congr fun ⟨d, c3⟩ => bind_congr fun ⟨w, c4⟩ =>
    bind_congr fun ⟨md, c5⟩ => bind_congr fun ⟨reg, c6⟩ => bind_congr fun ⟨rm, c7⟩ =>
    bind_congr fun ⟨o, c8⟩ => ?_
  dsimp only
  rw [Instr.answer]
  cases hd : o.declined mode with
  | true =>
    rw [locate_of_declined hd]
    rfl
  | false =>
    rw [locate_of_not_declined hd]
    obtain rfl | rfl := BitVec.eq_zero_or_eq_one d
    · rfl
    · rfl

/-- The pseudocode of format B is decoding a format-B instruction and answering it (R61, R79): the
immediate has the width that the pseudocode gives the register. -/
theorem assembleImmReg_eq_answer (mode : DirectAddrMode) (m : Memory) (r : Request) (c : Pos) :
    assembleImmReg m r.start r.addrIn c =
      fetchImmReg m c >>= fun ic => (Instr.answer mode r ic.2 ic.1).outcome := by
  simp only [assembleImmReg, fetchImmReg, bind_assoc, pure_bind]
  refine bind_congr fun ⟨w, c2⟩ => bind_congr fun ⟨reg, c3⟩ => ?_
  cases himm : immOfWidth m c3 (Width.ofBit w) with
  | error e => rfl
  | ok ic =>
    obtain ⟨hw, -, -⟩ := immOfWidth_ok_iff.mp (show _ = Except.ok (ic.1, ic.2) from himm)
    dsimp only
    rw [← hw]
    rfl

/-- The pseudocode's body answers what the decoded instruction answers, nibble by nibble (R76). -/
theorem assemble_eq_outcome_answerTo (mode : DirectAddrMode) (m : Memory) (r : Request) :
    assemble mode m r.start r.addrIn = (answerTo mode m r).outcome := by
  rw [outcome_answerTo, assemble, fetch, bind_assoc]
  refine bind_congr fun ⟨nib, c1⟩ => ?_
  obtain rfl | rfl | ⟨i, hi, rfl⟩ := nibble_cases nib
  · exact assembleRegMem_eq_answer mode m r c1
  · exact assembleImmReg_eq_answer mode m r c1
  · dsimp only
    rw [fetchRow_nibbleOnly mode m c1 hi]
    cases i with
    | movRegMem xx d w reg rm => simp only [Instr.bits] at hi; omega
    | movImmReg reg imm => simp only [Instr.bits] at hi; omega
    | _ => rfl

/-! ### Records that two encodings share -/

theorem answerTo_of_fetch_ok {mode : DirectAddrMode} {m : Memory} {r : Request} {i : Instr}
    {c : Pos} (h : fetch mode m r.start = .ok (i, c)) :
    answerTo mode m r = Instr.answer mode r c i := by
  rw [answerTo, h]

/-- A register-to-register move has two encodings with one response (R87). -/
theorem Instr.answer_exchange_registers (mode : DirectAddrMode) (r : Request) (c : Pos)
    (xx xx' : BitVec 2) (w : Width) (a b : Field3) :
    Instr.answer mode r c (.movRegMem xx .toRm w a (.reg b)) =
      Instr.answer mode r c (.movRegMem xx' .toReg w b (.reg a)) := by
  have hd : ∀ x, (RmOperand.reg x).declined mode = false := fun _ =>
    RmOperand.declined_eq_false (.inr nofun)
  rw [Instr.answer, Instr.answer, hd, hd]
  rfl

/-- Instructions answered with one record are equal up to the two collapses (R87). -/
theorem Instr.eq_up_to_collapses_of_answer {mode : DirectAddrMode} {r : Request} {i j : Instr}
    {c c' next next' : Pos} {rec : Record}
    (hi : Instr.answer mode r c i = .ok rec next)
    (hj : Instr.answer mode r c' j = .ok rec next') :
    i = j ∨
      (∃ xx xx' d w reg rm, i = .movRegMem xx d w reg rm ∧ j = .movRegMem xx' d w reg rm) ∨
      (∃ xx xx' w a b, i = .movRegMem xx .toRm w a (.reg b) ∧
        j = .movRegMem xx' .toReg w b (.reg a)) ∨
      (∃ xx xx' w a b, i = .movRegMem xx .toReg w b (.reg a) ∧
        j = .movRegMem xx' .toRm w a (.reg b)) := by
  obtain ⟨xx, d, w, reg, o, rfl, -, rfl⟩ | ⟨reg, imm, rfl, rfl⟩ := Instr.answer_ok hi <;>
    obtain ⟨xx', d', w', reg', o', rfl, -, hrec⟩ | ⟨reg', imm', rfl, hrec⟩ := Instr.answer_ok hj
  · have hsrc := Source.loc.inj (congrArg Record.src hrec)
    obtain ⟨rfl, ⟨rfl, rfl, rfl⟩ | ⟨hd, rfl, rfl⟩⟩ :=
      regMem_fields_of_roles_eq (congrArg Record.dst hrec) hsrc
    · exact .inr (.inl ⟨_, _, _, _, _, _, rfl, rfl⟩)
    · match d, d', hd with
      | .toRm, .toReg, _ => exact .inr (.inr (.inl ⟨_, _, _, _, _, rfl, rfl⟩))
      | .toReg, .toRm, _ => exact .inr (.inr (.inr ⟨_, _, _, _, _, rfl, rfl⟩))
  · cases congrArg Record.kind hrec
  · cases congrArg Record.kind hrec
  · obtain rfl := Source.imm.inj (congrArg Record.src hrec)
    cases congrArg Record.dst hrec
    exact .inl rfl

/-! ### Completion, truncation, format B -/

/-- Inside a transaction the register/memory move of a well-formed form that is not declined
completes with the record of its two operands (R77, R78). -/
theorem exec_movRegMem_of_not_declined {s : State} {r : Request} {c : Pos} {o : RmOperand}
    (hr : s.request = some r) (hc : s.cursor = some c) (hwf : o.wf s.directAddrMode = true)
    (hd : o.declined s.directAddrMode = false) (xx : BitVec 2) (d : Direction) (w : Width)
    (reg : Field3) :
    exec (.movRegMem xx d w reg o) s = .next (respond (.ok
      { address := r.addrIn, length := (c.abs - r.start.abs) / 8, kind := .movRegMemToRegMem
        dst := if d = .toReg then .reg ⟨reg, w⟩ else o.location w
        src := .loc (if d = .toReg then o.location w else .reg ⟨reg, w⟩) } c) s) := by
  have hexec := exec_eq_answer (i := .movRegMem xx d w reg o) hr hc hwf
  rwa [Instr.answer, if_neg (by simp [hd]), stamp, Direction.dst_eq_ite,
    Direction.src_eq_ite] at hexec

theorem step_of_failsAtOneOf {s : State} {r : Request} {fields : List (Nat × Nat)}
    (hr : s.request = some r)
    (hf : FailsAtOneOf fields s.buf r.start (fetch s.directAddrMode s.buf r.start)) :
    ∃ off need, (off, need) ∈ fields ∧ r.start.abs + off ≤ 8 * s.buf.length ∧
      8 * s.buf.length < r.start.abs + off + need ∧
      step s = .next (respond (.err (.insufficientInput (r.start.advance off) need)) s) := by
  obtain ⟨off, need, hmem, hin, hshort, he⟩ := hf
  refine ⟨off, need, hmem, hin, hshort, ?_⟩
  rw [step_eq_answerTo hr, answerTo_insufficientInput_iff.mpr he]

section ImmRegByte
variable {s : State} {r : Request} {w : Width} {reg : Field3}
variable (hr : s.request = some r)
  (hh : s.buf.holds r.start (bitsOfBytes [(0b1011#4 ++ w.bit ++ reg : BitVec 8)]))
include hr hh

/-- Where the immediate decoder answers, `n` bits on, the step answers the record of the register
and the raw immediate (R79, R81). -/
theorem step_of_immReg_ok {imm : Immediate} {n : Nat}
    (himm : immOfWidth s.buf (r.start.advance 8) w = .ok (imm, r.start.advance n)) :
    step s = .next (respond (.ok
      { address := r.addrIn, length := n / 8, kind := .movImmToReg
        dst := .reg ⟨reg, w⟩, src := .imm imm } (r.start.advance n)) s) := by
  obtain ⟨rfl, -, -⟩ := immOfWidth_ok_iff.mp himm
  have hlength : ((r.start.advance n).abs - r.start.abs) / 8 = n / 8 := by
    rw [Pos.abs_advance, Nat.add_sub_cancel_left]
  rw [step_eq_answerTo hr, answerTo, fetch_of_immReg_byte hh, bind_of_ok himm]
  dsimp only
  rw [Instr.answer, stamp, hlength]

/-- Where the immediate decoder fails, the step answers its error. -/
theorem step_of_immReg_error {e : Error}
    (he : immOfWidth s.buf (r.start.advance 8) w = .error e) :
    step s = .next (respond (.err e) s) := by
  rw [step_eq_answerTo hr, answerTo, fetch_of_immReg_byte hh, bind_of_error he]
end ImmRegByte

/-! ### The length of a record -/

/-- A record carries the request's address and a length of two to four bytes, all inside the
buffer, with the next position right past them (R81 to R83). -/
theorem answerTo_ok_length {mode : DirectAddrMode} {m : Memory} {r : Request} {rec : Record}
    {next : Pos} (h : answerTo mode m r = .ok rec next) :
    rec.address = r.addrIn ∧ (rec.length = 2 ∨ rec.length = 3 ∨ rec.length = 4) ∧
      next = r.start.advance (8 * rec.length) ∧ next.abs ≤ m.bitLength := by
  obtain ⟨i, -, ⟨hin, -⟩, hi⟩ := answerTo_ok h
  obtain ⟨hbits, hall⟩ := Instr.bits_of_answer_ok hi
  obtain ⟨hrec, hnext⟩ := Result.ok.inj ((Instr.answer_for_other_request hi r).symm.trans hi)
  obtain ⟨h2, h4⟩ := record_length_bounds r.start (i := i) (by omega)
  rw [Pos.abs_advance, hbits] at h2 h4
  rw [encodeBits_of_all_read hall, length_bitsOfBytes, ← hall] at hin
  refine ⟨(congrArg Record.address hrec).symm, by omega, by rw [← hnext, hbits], ?_⟩
  rwa [← hnext, Pos.abs_advance]

/-! ### The caller's stream -/

/-- An answered transaction is one step of a state in which its request waits. -/
theorem transact_some {r : Request} {s t : State} {res : Result}
    (h : transact r s = some (res, t)) :
    ∃ u, u.request = some r ∧ step u = .next t ∧ t.response = some res := by
  unfold transact at h
  split at h
  · rename_i u hu
    split at h
    · rename_i v hv
      obtain ⟨res', hres, heq⟩ := Option.map_eq_some_iff.mp h
      cases heq
      exact ⟨u, by rw [post_next hu], hv, hres⟩
    · cases h
    · cases h
  · cases h
  · cases h

/-- A record's next position is its length in bytes past the request's start (R83). -/
theorem transact_ok_next {r : Request} {s t : State} {rec : Record} {next : Pos}
    (h : transact r s = some (.ok rec next, t)) :
    next.abs = r.start.abs + 8 * rec.length ∧ 0 < rec.length := by
  obtain ⟨u, hu, hstep, hres⟩ := transact_some h
  obtain ⟨-, hlength, rfl, -⟩ := answerTo_ok_length (response_of_step hu hstep hres)
  exact ⟨Pos.abs_advance _ _, by omega⟩

/-- Everything the loop that stops at the first error can do with its next transaction: it is not
answered; it is the last, answered with an error; or after its record the loop goes on at the
record's next position (R100). -/
theorem stream_stopPolicy_succ_cases (n : Nat) (r : Request) (s : State) :
    stream stopPolicy (n + 1) r s = [] ∨
      (∃ e, stream stopPolicy (n + 1) r s = [(r, .err e)]) ∨
        ∃ rec next t, transact r s = some (.ok rec next, t) ∧ stream stopPolicy (n + 1) r s =
          (r, .ok rec next) :: stream stopPolicy n ⟨next, r.addrIn + rec.length⟩ t := by
  cases h : transact r s with
  | none => exact .inl (by simp [stream, h])
  | some answered =>
    obtain ⟨res, t⟩ := answered
    cases res with
    | ok rec next => exact .inr (.inr ⟨rec, next, t, rfl, by simp [stream, h, nextRequest]⟩)
    | err e => exact .inr (.inl ⟨e, by simp [stream, h, nextRequest, stopPolicy]⟩)

/-- No request of a stream starts before its first one. -/
theorem stream_start_le {n : Nat} {r0 r : Request} {s : State} {res : Result}
    (h : (r, res) ∈ stream stopPolicy n r0 s) : r0.start.abs ≤ r.start.abs := by
  induction n generalizing r0 s with
  | zero => cases h
  | succ n ih =>
    obtain hnil | ⟨e, herr⟩ | ⟨rec, next, t, ht, hok⟩ := stream_stopPolicy_succ_cases n r0 s
    · rw [hnil] at h
      cases h
    · rw [herr, List.mem_singleton] at h
      cases h
      exact Nat.le_refl _
    · rw [hok] at h
      obtain hhead | htail := List.mem_cons.mp h
      · cases hhead
        exact Nat.le_refl _
      · obtain ⟨hnext, -⟩ := transact_ok_next ht
        calc r0.start.abs ≤ next.abs := by omega
          _ ≤ r.start.abs := ih htail

/-! ### The statements -/

/-- Settles O3: the pseudocode answers what the decoded instruction answers
(`assemble_eq_outcome_answerTo`), and so does the step (`step_eq_answerTo`). -/
theorem stepAnswersTheSpecsDecode : Obligations.StepAnswersTheSpecsDecode := by
  intro s r hr
  rw [step_eq_answerTo hr, decode_eq_of_assemble (assemble_eq_outcome_answerTo _ _ _)]
  rfl

/-- Settles O38: the two decodes fail alike or differ in the direction alone
(`fetchRegMem_of_agree_but_direction`), whose two values exchange the roles; a declined form is
declined in both. -/
theorem directionBitSymmetry : Obligations.DirectionBitSymmetry := by
  intro s s' r c1 hmode hr hr' hlen hnib hbit
  have hagree : ∀ k n, k + n ≤ 6 ∨ 6 < k → s.buf.AgreeFrom s'.buf (r.start.advance k) n := by
    refine fun k n hk => ⟨hlen, fun j hj => ?_⟩
    rw [Pos.abs_advance]
    exact (hbit _).mpr (by omega)
  have hfirst := hagree 0 4 (by decide)
  have hxx := hagree 4 2 (by decide)
  have hrest := hagree 7 25 (by decide)
  rw [Pos.advance_zero] at hfirst
  rw [← Pos.advance_advance r.start 4 3] at hrest
  have hnib' := (take_congr hfirst (Nat.le_refl 4)).symm.trans hnib
  have hdir := direction_ne_of_bit_ne (mt (hbit (r.start.abs + 6)).mp (by simp))
  obtain ⟨-, -, rfl⟩ := take_ok_iff.mp hnib
  rw [step_eq_answerTo hr, step_eq_answerTo hr', ← hmode, answerTo, answerTo,
    fetch_eq_fetchRegMem hnib, fetch_eq_fetchRegMem hnib']
  obtain ⟨e, he, he'⟩ | ⟨xx, w, reg, o, c, hi, hi'⟩ :=
    fetchRegMem_of_agree_but_direction hxx hrest s.directAddrMode
  · rw [he, he']
    exact .inr ⟨e, rfl, rfl⟩
  · rw [hi, hi']
    dsimp only
    rw [Pos.abs_advance, Instr.answer, Instr.answer]
    split
    · exact .inr ⟨_, rfl, rfl⟩
    · obtain ⟨hdst, hsrc⟩ := Direction.roles_of_ne hdir (.reg ⟨reg, w⟩) (o.location w)
      exact .inl ⟨_, _, _, _, _, rfl, rfl, rfl, rfl, rfl, hdst, congrArg _ hsrc⟩

/-- Settles O47: one record comes from instructions that are equal up to the collapses, and those
have one response; a record holds `Bare(BP)` only as the location of its `rm` operand, where it is
legal under REFERENCE alone. -/
theorem roundTripUpToTwoCollapses : Obligations.RoundTripUpToTwoCollapses := by
  refine ⟨?oneToOne, ?bareBp⟩
  case oneToOne =>
    intro s s' t t' r i j c c' rec rec' next next' hmode hr hr' hf hf' ht ht' hres hres'
    have hi := (answerTo_of_fetch_ok hf).symm.trans (response_of_step hr ht hres)
    have hj := (answerTo_of_fetch_ok hf').symm.trans (response_of_step hr' ht' hres')
    rw [← hmode] at hj
    obtain ⟨-, -, rfl⟩ := fetch_ok_iff.mp hf
    obtain ⟨-, -, rfl⟩ := fetch_ok_iff.mp hf'
    constructor
    · rintro ⟨rfl, -⟩
      exact Instr.eq_up_to_collapses_of_answer hi hj
    · intro h
      suffices hij : Result.ok rec next = .ok rec' next' from Result.ok.inj hij
      rw [← hi, ← hj]
      obtain rfl | ⟨xx, xx', d, w, reg, rm, rfl, rfl⟩ | ⟨xx, xx', w, a, b, rfl, rfl⟩ |
        ⟨xx, xx', w, a, b, rfl, rfl⟩ := h
      · rfl
      · rfl
      · exact Instr.answer_exchange_registers ..
      · exact (Instr.answer_exchange_registers ..).symm
  case bareBp =>
    intro s t r i c rec next hr hf ht hres hbp
    have hi := (answerTo_of_fetch_ok hf).symm.trans (response_of_step hr ht hres)
    obtain ⟨hwf, -, -⟩ := fetch_ok_iff.mp hf
    obtain ⟨xx, d, w, reg, o, rfl, hd, rfl⟩ | ⟨reg, imm, rfl, rfl⟩ := Instr.answer_ok hi
    · have hloc : o.location w = .mem (.bare .bp) := eq_mem_of_dst_or_src (by simpa using hbp)
      have hlegal := location_legal w hwf hd
      rw [hloc] at hlegal
      obtain rfl := RmOperand.eq_of_location_eq
        (show o.location w = (RmOperand.bare 0b110#3).location w from hloc)
      exact ⟨hlegal rfl, _, _, _, _, rfl⟩
    · simp at hbp

/-- Settles O5: the step leaves no request and no cursor, so the block accepts the request again,
and the response is `answerTo` of the same configuration, buffer and request. -/
theorem repeatedRequestGetsTheSameResult : Obligations.RepeatedRequestGetsTheSameResult := by
  intro s r hr
  exact ⟨_, _, _, step_eq_answerTo hr, rfl, step_eq_answerTo rfl, rfl, by simp⟩

/-- Settles O30: each operand form of the statement is well formed, is not declined and names its
location. -/
theorem regMemMoveCompletes : Obligations.RegMemMoveCompletes := by
  intro s r c xx d w reg rm loc hr hc hform
  suffices h : rm.wf s.directAddrMode = true ∧ rm.declined s.directAddrMode = false ∧
      loc = rm.location w by
    obtain ⟨hwf, hd, rfl⟩ := h
    exact exec_movRegMem_of_not_declined hr hc hwf hd xx d w reg
  obtain ⟨x, rfl, rfl⟩ | ⟨x, rfl, hx | hmode, rfl⟩ | ⟨x, v, rfl, rfl⟩ | ⟨x, v, rfl, rfl⟩ |
    ⟨v, rfl, hmode, rfl⟩ := hform
  · exact ⟨rfl, RmOperand.declined_eq_false (.inr nofun), rfl⟩
  · exact ⟨(RmOperand.bare_wf_iff _ x).mpr fun h => hx h.1,
      RmOperand.declined_eq_false (.inr (by simpa using hx)), rfl⟩
  · exact ⟨(RmOperand.bare_wf_iff _ x).mpr (by simp [hmode]),
      RmOperand.declined_eq_false (.inl (by simp [hmode])), rfl⟩
  · exact ⟨rfl, RmOperand.declined_eq_false (.inr nofun), rfl⟩
  · exact ⟨rfl, RmOperand.declined_eq_false (.inr nofun), rfl⟩
  · exact ⟨by simp [RmOperand.wf, hmode], RmOperand.declined_eq_false (.inr nofun), rfl⟩

/-- Settles O37: with the nibble read and fewer than 16 bits, one of format A's six fields is the
first that does not fit. -/
theorem truncatedRegMemMoveNamesTheField : Obligations.TruncatedRegMemMoveNamesTheField := by
  intro s r c1 hr hnib hshort
  obtain ⟨h4, -, rfl⟩ := take_ok_iff.mp hnib
  refine step_of_failsAtOneOf hr ?_
  rw [fetch_eq_fetchRegMem hnib]
  exact failsAtOneOf_fetchRegMem h4 hshort _

/-- Settles O40: by the width, the immediate is the one-byte or the two-byte read after the first
byte. -/
theorem immediateMoveFromBits : Obligations.ImmediateMoveFromBits := by
  intro s r reg hr
  refine ⟨fun hh => ⟨fun v c hv => ?byte, fun h16 => ?noByte⟩,
    fun hh => ⟨fun lo hi c hlo hhi => ?word, fun h16 => ?noLow, fun h16 h24 => ?noHigh⟩⟩
  case byte =>
    obtain ⟨-, -, rfl⟩ := take_ok_iff.mp hv
    rw [Pos.advance_advance] at hv
    exact step_of_immReg_ok (w := .byte) hr hh (imm8_of_take hv)
  case noByte =>
    refine step_of_immReg_error (w := .byte) hr hh (imm8_of_error (take_of_lt ?_))
    rwa [Pos.abs_advance]
  case word =>
    obtain ⟨-, -, rfl⟩ := take_ok_iff.mp hhi
    rw [Pos.advance_advance] at hhi
    exact step_of_immReg_ok (w := .word) hr hh (imm16_of_takeHalf (takeHalf_of_takes hlo hhi))
  case noLow =>
    refine step_of_immReg_error (w := .word) hr hh (imm16_of_error (takeHalf_of_no_byte ?_))
    rwa [Pos.abs_advance]
  case noHigh =>
    have hone := takeHalf_of_one_byte (m := s.buf) (c := r.start.advance 8)
      (by rwa [Pos.abs_advance]) (by rwa [Pos.abs_advance])
    rw [Pos.advance_advance] at hone
    exact step_of_immReg_error (w := .word) hr hh (imm16_of_error hone)

/-- Settles O41: with the nibble read and fewer than 8 bits, `w` or `reg` is the first field that
does not fit. -/
theorem truncatedImmRegMoveNamesTheField : Obligations.TruncatedImmRegMoveNamesTheField := by
  intro s r c1 hr hnib hshort
  obtain ⟨h4, -, rfl⟩ := take_ok_iff.mp hnib
  refine step_of_failsAtOneOf hr ?_
  rw [fetch_eq_fetchImmReg hnib]
  exact failsAtOneOf_fetchImmReg h4 hshort

/-- Settles O42, by the bits of the record's instruction (`answerTo_ok_length`). -/
theorem lengthConservation : Obligations.LengthConservation := by
  intro s t r rec next hr ht hres
  obtain ⟨haddr, hlength, rfl, hin⟩ := answerTo_ok_length (response_of_step hr ht hres)
  refine ⟨haddr, hlength, ?_, rfl, Pos.bitOffset_advance_bytes _ _, hin⟩
  rw [Pos.abs_advance]
  omega

/-- Settles O52, by induction on the loop's bound: the first record ends where the rest of the
stream begins, and no later request starts before that (`stream_start_le`). -/
theorem streamRecordsNeverOverlap : Obligations.StreamRecordsNeverOverlap := by
  intro n
  induction n with
  | zero =>
    intro s r0 r r' rec next res' j k hjk hj hk
    cases hj
  | succ n ih =>
    intro s r0 r r' rec next res' j k hjk hj hk
    obtain hnil | ⟨e, herr⟩ | ⟨rec0, next0, t, ht, hok⟩ := stream_stopPolicy_succ_cases n r0 s
    · simp [hnil] at hj
    · simp [herr, List.getElem?_cons] at hj
    · obtain ⟨k, rfl⟩ := Nat.exists_eq_add_one_of_ne_zero (Nat.ne_zero_of_lt hjk)
      rw [hok] at hj hk
      rw [List.getElem?_cons_succ] at hk
      cases j with
      | zero =>
        cases hj
        obtain ⟨hnext, hpos⟩ := transact_ok_next ht
        exact ⟨hnext, by omega, stream_start_le (List.mem_of_getElem? hk)⟩
      | succ j => exact ih t _ r r' rec next res' j k (by omega) hj hk

/-- Settles O27: the decoder answers the instruction whose encoding the buffer shows
(`fetch_ok_iff`). -/
theorem stepRunsTheDecodedInstruction : Obligations.StepRunsTheDecodedInstruction :=
  fun _ _ _ hr hwf hh => step_of_fetch_ok hr (fetch_ok_iff.mpr ⟨hwf, hh, rfl⟩)

/-- Settles O39: the move is well formed in every configuration and completes with its response
(`exec_eq_answer`). -/
theorem immRegMoveCompletes : Obligations.ImmRegMoveCompletes :=
  fun _ _ _ _ hr hc => ⟨fun _ => exec_eq_answer hr hc rfl, fun _ => exec_eq_answer hr hc rfl⟩

end Sys2Proof.Machine

/-! ## Proofs of the family `60_exceptions.md`

What an `InsufficientInput` names, and that the block is ready again after an error. -/

namespace Sys2Proof

/-- Every field of the layout has one of the widths that the block reads, and ends within the 32 bits
that a transaction may read. -/
theorem width_and_end_of_mem_fieldLayout {k n : Nat} (h : (k, n) ∈ fieldLayout) :
    (n = 1 ∨ n = 2 ∨ n = 3 ∨ n = 4 ∨ n = 8) ∧ k + n ≤ 32 := by
  have hall : ∀ f ∈ fieldLayout,
      (f.2 = 1 ∨ f.2 = 2 ∨ f.2 = 3 ∨ f.2 = 4 ∨ f.2 = 8) ∧ f.1 + f.2 ≤ 32 := by decide
  exact hall (k, n) h

end Sys2Proof

namespace Sys2Proof.Machine

/-- After a response the block is not busy: it accepts any request, which takes the response away. -/
theorem post_respond (r : Request) (res : Result) (s : State) :
    post r (respond res s) = .next { s with request := some r, cursor := none, response := none } :=
  rfl

/-- Settles O45: the decode failed at a field of the layout (`failsAtField_fetch`), the first that
does not fit; its width and place are the layout's. -/
theorem insufficientInputIsPrecise : Obligations.InsufficientInputIsPrecise := by
  intro s t r p need hr ht hres
  have hfetch := answerTo_insufficientInput_iff.mp (response_of_step hr ht hres)
  obtain ⟨k, n, hmem, hk, hshort, he⟩ := failsAtField_fetch _ _ _ _ hfetch
  obtain ⟨rfl, rfl⟩ := Error.insufficientInput.inj he
  obtain ⟨hwidth, hend⟩ := width_and_end_of_mem_fieldLayout hmem
  rw [Pos.abs_advance]
  refine ⟨hwidth, by omega, by omega, hshort, ?_⟩
  obtain rfl | hin := hk
  · exact .inl r.start.advance_zero
  · exact .inr hin

/-- Settles O6: the answered state accepts every request (`post_respond`), and the failed request,
with the same configuration and buffer, has the same `answerTo`. -/
theorem readyAfterAnError : Obligations.ReadyAfterAnError := by
  intro s t e r0 hr ht hres
  have herr : answerTo s.directAddrMode s.buf r0 = .err e := response_of_step hr ht hres
  rw [step_eq_answerTo hr] at ht
  cases ht
  exact ⟨fun r => post_respond r _ s, _, step_eq_answerTo rfl, congrArg some herr⟩

end Sys2Proof.Machine

/-! ## Proofs of the family `70_reset_and_hazards.md`

What reset leaves, and what a request of the caller's stream takes over from the one before. -/

namespace Sys2Proof

/-- A position whole bytes further on has the same bit offset and a byte index that much greater. -/
theorem Pos.whole_bytes_on {p q : Pos} {n : Nat} (h : q.abs = p.abs + 8 * n) :
    q.bitOffset = p.bitOffset ∧ q.byteIndex = p.byteIndex + n := by
  have hp := p.bitOffset.isLt
  have hq := q.bitOffset.isLt
  unfold Pos.abs at h
  exact ⟨Fin.ext (by omega), by omega⟩

end Sys2Proof

namespace Sys2Proof.Machine

/-! ### The state after reset -/

theorem resetIn_inv (m : DirectAddrMode) : (State.resetIn m).Inv where
  buf_wf := resetIn_buf_wf m
  no_cursor := rfl
  request_width := nofun
  response_legal := nofun

/-! ### One transaction of the caller -/

/-- A block with no transaction in progress accepts every request, which takes the response away
(log 18). -/
theorem post_of_idle {s : State} (h : s.busy = false) (r : Request) :
    post r s = .next { s with request := some r, response := none } := by
  simp [post, h]

/-- A block with no transaction in progress answers every request. -/
theorem transact_of_idle {s : State} (h : s.busy = false) (r : Request) :
    transact r s = some (answerTo s.directAddrMode s.buf r,
      respond (answerTo s.directAddrMode s.buf r) s) := by
  unfold transact
  rw [post_of_idle h]
  dsimp only
  rw [step_eq_answerTo rfl]
  rfl

/-- A request at the end of a byte-aligned buffer has no bits left for its nibble (R89, R100). -/
theorem answerTo_at_end (mode : DirectAddrMode) {m : Memory} {r : Request}
    (h : r.start = ⟨m.length, 0⟩) :
    answerTo mode m r = .err (.insufficientInput ⟨m.length, 0⟩ 4) := by
  have hshort : m.bitLength < r.start.abs + 4 := by
    simp [h, Pos.abs, Memory.bitLength]
  rw [answerTo_insufficientInput_iff, fetch_of_short hshort, h]

/-! ### The caller's loop under any policy -/

/-- The loop asks nothing more at the normal end, whatever its policy (R100). -/
theorem nextRequest_at_end (policy : Request → Error → Option Request) {s : State} {r : Request}
    (h : r.start = ⟨s.buf.length, 0⟩) (n : Nat) :
    nextRequest policy s r (.err (.insufficientInput ⟨s.buf.length, 0⟩ n)) = none := by
  simp [nextRequest, normalEnd, h]

/-- Where the caller asks nothing more, the answered transaction is the stream's last. -/
theorem stream_of_last {policy : Request → Error → Option Request} {r : Request} {s t : State}
    {res : Result} (ht : transact r s = some (res, t)) (hnext : nextRequest policy t r res = none)
    (n : Nat) : stream policy (n + 1) r s = [(r, res)] := by
  simp [stream, ht, hnext]

/-- Where the caller asks again, the stream goes on with that request in the state after the
answer. -/
theorem stream_of_next {policy : Request → Error → Option Request} {r r' : Request} {s t : State}
    {res : Result} (ht : transact r s = some (res, t))
    (hnext : nextRequest policy t r res = some r') (n : Nat) :
    stream policy (n + 1) r s = (r, res) :: stream policy n r' t := by
  simp [stream, ht, hnext]

/-- Everything the loop can do with its next transaction: it is not answered; it is the last; or the
loop goes on with the request that its answer leads to (R100). -/
theorem stream_succ_cases (policy : Request → Error → Option Request) (n : Nat) (r : Request)
    (s : State) :
    stream policy (n + 1) r s = [] ∨
      ∃ res t, transact r s = some (res, t) ∧
        (stream policy (n + 1) r s = [(r, res)] ∨
          ∃ r', nextRequest policy t r res = some r' ∧
            stream policy (n + 1) r s = (r, res) :: stream policy n r' t) := by
  cases ht : transact r s with
  | none => exact .inl (by simp [stream, ht])
  | some answered =>
    obtain ⟨res, t⟩ := answered
    refine .inr ⟨res, t, rfl, ?_⟩
    cases hnext : nextRequest policy t r res with
    | none => exact .inl (stream_of_last ht hnext n)
    | some r' => exact .inr ⟨r', rfl, stream_of_next ht hnext n⟩

/-- The first request of a stream is the one that the loop is given. -/
theorem stream_first_request {policy : Request → Error → Option Request} {n : Nat} {r0 r : Request}
    {s : State} {res : Result} (h : (stream policy n r0 s)[0]? = some (r, res)) : r = r0 := by
  cases n with
  | zero => cases h
  | succ n =>
    obtain hs | ⟨res0, t, -, hs | ⟨r1, -, hs⟩⟩ := stream_succ_cases policy n r0 s
    · simp [hs] at h
    · rw [hs] at h
      cases h
      rfl
    · rw [hs] at h
      cases h
      rfl

/-- A request of the loop that stops at the first error is the first one, or one of the rest after a
record. -/
theorem mem_stream_stopPolicy_succ {n : Nat} {r0 r : Request} {s : State} {res : Result}
    (h : (r, res) ∈ stream stopPolicy (n + 1) r0 s) :
    r = r0 ∨ ∃ rec next t, transact r0 s = some (.ok rec next, t) ∧
      (r, res) ∈ stream stopPolicy n ⟨next, r0.addrIn + rec.length⟩ t := by
  obtain hnil | ⟨e, herr⟩ | ⟨rec, next, t, ht, hok⟩ := stream_stopPolicy_succ_cases n r0 s
  · simp [hnil] at h
  · rw [herr, List.mem_singleton] at h
    exact .inl (Prod.mk.inj h).1
  · rw [hok] at h
    obtain hhead | htail := List.mem_cons.mp h
    · exact .inl (Prod.mk.inj hhead).1
    · exact .inr ⟨rec, next, t, ht, htail⟩

/-! ### The statements -/

/-- Settles O51, by induction on the loop's bound: after the first record the loop goes on with the
request that `nextRequest` gives, which is the first of the rest (`stream_first_request`). -/
theorem streamFollowsNext : Obligations.StreamFollowsNext := by
  intro policy n
  induction n with
  | zero =>
    intro s r0 r r' rec next res' k hk
    cases hk
  | succ n ih =>
    intro s r0 r r' rec next res' k hk hk'
    obtain hs | ⟨res, t, -, hs | ⟨r1, hnext, hs⟩⟩ := stream_succ_cases policy n r0 s
    · simp [hs] at hk
    · simp [hs] at hk'
    · rw [hs] at hk hk'
      rw [List.getElem?_cons_succ] at hk'
      cases k with
      | zero =>
        cases hk
        cases hnext
        obtain rfl := stream_first_request hk'
        exact ⟨rfl, rfl⟩
      | succ k => exact ih t r1 r r' rec next res' k hk hk'

/-- Settles O53, by induction on the loop's bound: a record of `n` bytes moves both the byte index and
the address on by `n` and keeps the bit offset (`Pos.whole_bytes_on`). -/
theorem streamAddressesFollowTheStarts : Obligations.StreamAddressesFollowTheStarts := by
  intro n
  induction n with
  | zero =>
    intro s r0 r res h
    cases h
  | succ n ih =>
    intro s r0 r res h
    obtain rfl | ⟨rec, next, t, ht, htail⟩ := mem_stream_stopPolicy_succ h
    · exact ⟨rfl, Nat.le_refl _, by omega⟩
    · obtain ⟨hnext, -⟩ := transact_ok_next ht
      obtain ⟨hoffset, hbyte⟩ := Pos.whole_bytes_on hnext
      obtain ⟨hoffset', hle, haddr⟩ := ih t _ r res htail
      dsimp only at hoffset' hle haddr
      exact ⟨hoffset'.trans hoffset, by omega, by omega⟩

/-- Settles O1: reset clears the three ports, and without a request a step does nothing
(`step_of_idle`). -/
theorem resetLeavesTheBlockIdle : Obligations.ResetLeavesTheBlockIdle :=
  ⟨fun _ => ⟨rfl, rfl, rfl, rfl⟩,
    fun s => ⟨applyReset_directAddrMode s, applyReset_request s, applyReset_cursor s,
      applyReset_response s⟩,
    fun _ => step_of_idle⟩

/-- Settles O49 (`resetIn_inv`); `State.reset` is the reset state of one configuration. -/
theorem resetHasTheInvariant : Obligations.ResetHasTheInvariant :=
  ⟨resetIn_inv, resetIn_inv _⟩

/-- Settles O54: the idle block answers the request (`transact_of_idle`) with the error of the normal
end (`answerTo_at_end`), after which the loop asks nothing more (`nextRequest_at_end`). -/
theorem streamStopsAtTheNormalEnd : Obligations.StreamStopsAtTheNormalEnd := by
  intro policy n s r hrequest hcursor hstart
  have ht := transact_of_idle (s.busy_eq_false_iff.mpr ⟨hrequest, hcursor⟩) r
  rw [answerTo_at_end _ hstart] at ht
  exact stream_of_last ht (nextRequest_at_end policy hstart 4) n

end Sys2Proof.Machine

/-! ## Proofs of the family `other`

Where a meaning and the caller's second request are refused. -/

namespace Sys2Proof.Machine

/-- Without a request or without a cursor `inTransaction` refuses, whatever would run inside. -/
theorem inTransaction_of_not_inside {s : State} (h : s.request = none ∨ s.cursor = none)
    (k : Request → Pos → Host.Outcome State Fault Refusal) :
    inTransaction s k = .refused .noTransaction := by
  obtain ⟨r, c, hr, hc, -⟩ | ⟨-, hk⟩ := inTransaction_cases s k
  · simp [hr, hc] at h
  · exact hk

/-- Outside a transaction every meaning refuses (log 9). -/
theorem exec_outside_transaction (i : Instr) {s : State}
    (h : s.request = none ∨ s.cursor = none) : exec i s = .refused .noTransaction := by
  cases i <;> exact inTransaction_of_not_inside h _

/-- Only a format-A operand form can be ill-formed (R55, R71). -/
theorem Instr.wf_eq_false {mode : DirectAddrMode} {i : Instr} (h : i.wf mode = false) :
    ∃ xx d w reg rm, i = .movRegMem xx d w reg rm ∧ rm.wf mode = false := by
  cases i with
  | movRegMem xx d w reg rm => exact ⟨xx, d, w, reg, rm, rfl, h⟩
  | _ => cases h

/-- Inside a transaction a format-A move with an operand form that no bits spell refuses (log 8). -/
theorem execMovRegMem_of_not_wf {s : State} {r : Request} {c : Pos} {rm : RmOperand}
    (hr : s.request = some r) (hc : s.cursor = some c) (hrm : rm.wf s.directAddrMode = false)
    (xx : BitVec 2) (d : Direction) (w : Width) (reg : Field3) :
    execMovRegMem xx d w reg rm s = .refused .formOutsideConfiguration :=
  (inTransaction_eq hr hc _).trans (if_pos hrm)

/-- Settles O9: every meaning runs inside `inTransaction`, and an ill-formed instruction is a format-A
move with an ill-formed operand. -/
theorem meaningsStopOutsideTheirDomain : Obligations.MeaningsStopOutsideTheirDomain := by
  refine ⟨fun i s => exec_outside_transaction i, fun s r c i hr hc hwf => ?_⟩
  obtain ⟨xx, d, w, reg, rm, rfl, hrm⟩ := Instr.wf_eq_false hwf
  exact execMovRegMem_of_not_wf hr hc hrm xx d w reg

theorem post_of_busy {s : State} (h : s.busy = true) (r : Request) :
    post r s = .refused .requestInFlight := by
  simp [post, h]

/-- Settles O14: a waiting request makes the block busy, and a block with neither request nor cursor is
not (`State.busy_eq_false_iff`). -/
theorem oneRequestInFlight : Obligations.OneRequestInFlight := fun s r =>
  ⟨fun hrequest => post_of_busy (State.busy_of_request hrequest) r,
    fun hrequest hcursor => post_of_idle (s.busy_eq_false_iff.mpr ⟨hrequest, hcursor⟩) r⟩

end Sys2Proof.Machine
